-- ==== Sys2Proof/Word.lean ====
section
/-! DEFINITION. The machine's words and the two narrowings the spec's pseudocode uses. -/

namespace Sys2Proof

/-- A general register, a memory cell, a timer, an immediate `NN` (R8, R20, R60). -/
abbrev Byte := BitVec 8

/-- An instruction word, the index register, the program counter, a stack entry (R24, R26, R29, R90). -/
abbrev Word := BitVec 16

/-- The number of a general register, `V0` to `VF` (R20). -/
abbrev Reg := Fin 16

/-- The number of a logical key, 0x0 to 0xF (R36). -/
abbrev Key := Fin 16

/-- `VF`, the flag register (R22). -/
abbrev vf : Reg := 15

/-- `trunc8(v) = v mod 256` (R8). -/
abbrev trunc8 (v : Nat) : Byte := BitVec.ofNat 8 v

/-- `trunc16(v) = v mod 65536` (R8). -/
abbrev trunc16 (v : Nat) : Word := BitVec.ofNat 16 v

end Sys2Proof
end

