-- ==== Sys2Proof/Syntax.lean ====
section
/-! DEFINITION. The 34 instructions of R94, one constructor for each row of the opcode map. The operands
are the fields of R91 as R92 assembles them: `X` and `Y` register numbers, `NN` a byte, `NNN` an address
zero-extended to 16 bits, `N` a count. `WellFormed` says which values of `NNN` and `N` a word can hold. -/

namespace Sys2Proof

inductive Instr where
  /-- `00E0`, `CLS` (R210) -/
  | cls
  /-- `00EE`, `RET` (R140) -/
  | ret
  /-- `1NNN`, `JP NNN` (R141) -/
  | jp (nnn : Word)
  /-- `2NNN`, `CALL NNN` (R142) -/
  | call (nnn : Word)
  /-- `3XNN`, `SE VX, NN` (R143) -/
  | seImm (x : Reg) (nn : Byte)
  /-- `4XNN`, `SNE VX, NN` (R144) -/
  | sneImm (x : Reg) (nn : Byte)
  /-- `5XY0`, `SE VX, VY` (R145) -/
  | seReg (x y : Reg)
  /-- `6XNN`, `LD VX, NN` (R160) -/
  | ldImm (x : Reg) (nn : Byte)
  /-- `7XNN`, `ADD VX, NN` (R161) -/
  | addImm (x : Reg) (nn : Byte)
  /-- `8XY0`, `LD VX, VY` (R162) -/
  | ldReg (x y : Reg)
  /-- `8XY1`, `OR VX, VY` (R163) -/
  | orReg (x y : Reg)
  /-- `8XY2`, `AND VX, VY` (R164) -/
  | andReg (x y : Reg)
  /-- `8XY3`, `XOR VX, VY` (R165) -/
  | xorReg (x y : Reg)
  /-- `8XY4`, `ADD VX, VY` (R166) -/
  | addReg (x y : Reg)
  /-- `8XY5`, `SUB VX, VY` (R167) -/
  | subReg (x y : Reg)
  /-- `8XY6`, `SHR VX, VY` (R168); `Y` is decoded and not read (R98) -/
  | shr (x y : Reg)
  /-- `8XY7`, `SUBN VX, VY` (R169) -/
  | subn (x y : Reg)
  /-- `8XYE`, `SHL VX, VY` (R170); `Y` is decoded and not read (R98) -/
  | shl (x y : Reg)
  /-- `9XY0`, `SNE VX, VY` (R146) -/
  | sneReg (x y : Reg)
  /-- `ANNN`, `LD I, NNN` (R190) -/
  | ldI (nnn : Word)
  /-- `BNNN`, `JP V0, NNN` (R147) -/
  | jpV0 (nnn : Word)
  /-- `CXNN`, `RND VX, NN` (R171) -/
  | rnd (x : Reg) (nn : Byte)
  /-- `DXYN`, `DRW VX, VY, N` (R211) -/
  | drw (x y : Reg) (n : Nat)
  /-- `EX9E`, `SKP VX` (R230) -/
  | skp (x : Reg)
  /-- `EXA1`, `SKNP VX` (R231) -/
  | sknp (x : Reg)
  /-- `FX07`, `LD VX, DT` (R232) -/
  | ldVxDt (x : Reg)
  /-- `FX0A`, `LD VX, K` (R235) -/
  | ldVxK (x : Reg)
  /-- `FX15`, `LD DT, VX` (R233) -/
  | ldDtVx (x : Reg)
  /-- `FX18`, `LD ST, VX` (R234) -/
  | ldStVx (x : Reg)
  /-- `FX1E`, `ADD I, VX` (R191) -/
  | addI (x : Reg)
  /-- `FX29`, `LD F, VX` (R192) -/
  | ldF (x : Reg)
  /-- `FX33`, `LD B, VX` (R193) -/
  | ldB (x : Reg)
  /-- `FX55`, `LD [I], VX` (R194) -/
  | ldMemVx (x : Reg)
  /-- `FX65`, `LD VX, [I]` (R195) -/
  | ldVxMem (x : Reg)
deriving DecidableEq, Repr

end Sys2Proof
end

