-- ==== Sys2Proof/WellFormed.lean ====
section
/-! DEFINITION. Which instructions a 16-bit word can hold (R91, R92): `NNN` is a 12-bit address and `N` a
count 0 to 15. Register numbers and `NN` are bounded by their types. -/

namespace Sys2Proof

/-- `NNN` is 0 to 0xFFF (R92). -/
def Instr.addressFits (nnn : Word) : Bool := decide (nnn.toNat ≤ 0xFFF)

/-- `N` is 0 to 15 (R92). -/
def Instr.countFits (n : Nat) : Bool := decide (n ≤ 15)

/-- The operands fit the fields of the instruction's word. -/
def Instr.wf : Instr → Bool
  | .jp nnn | .call nnn | .ldI nnn | .jpV0 nnn => addressFits nnn
  | .drw _ _ n => countFits n
  | .seImm _ _ | .sneImm _ _ | .ldImm _ _ | .addImm _ _ | .rnd _ _ => true
  | .seReg _ _ | .sneReg _ _ | .ldReg _ _ | .orReg _ _ | .andReg _ _ | .xorReg _ _ => true
  | .addReg _ _ | .subReg _ _ | .shr _ _ | .subn _ _ | .shl _ _ => true
  | .skp _ | .sknp _ | .ldVxDt _ | .ldVxK _ | .ldDtVx _ | .ldStVx _ => true
  | .addI _ | .ldF _ | .ldB _ | .ldMemVx _ | .ldVxMem _ => true
  | .cls | .ret => true

end Sys2Proof
end

