-- ==== Sys2Proof/Decode.lean ====
section
/-! DEFINITION. The fields of an instruction word (R7, R91), the opcode map (R94), the decoder (R93, R96)
and the encoder. -/

namespace Sys2Proof

/-! ### Fields of a word -/

/-- `w[hi:lo]`, read as an unsigned number (R7). -/
def bitField (w : Word) (hi lo : Nat) : Nat := w.toNat / 2 ^ lo % 2 ^ (hi - lo + 1)

/-- The top nibble `w[15:12]`, the family selector (R91). -/
def fieldFamily (w : Word) : Nat := bitField w 15 12

/-- `X = w[11:8]`, a register number (R7, R92). -/
def fieldX (w : Word) : Reg := Fin.ofNat 16 (bitField w 11 8)

/-- `Y = w[7:4]`, a register number (R7, R92). -/
def fieldY (w : Word) : Reg := Fin.ofNat 16 (bitField w 7 4)

/-- `N = w[3:0]`, an unsigned count (R7, R92). -/
def fieldN (w : Word) : Nat := bitField w 3 0

/-- `NN = w[7:0]`, an unsigned byte (R7, R92). -/
def fieldNN (w : Word) : Byte := trunc8 (bitField w 7 0)

/-- `NNN = w[11:0]`, a 12-bit address, zero-extended to 16 bits (R7, R92). -/
def fieldNNN (w : Word) : Word := trunc16 (bitField w 11 0)

/-- Two consecutive bytes of memory as one big-endian word: the byte at the lower address is bits
15 to 8 (R68, R71). -/
def wordOfBytes (hi lo : Byte) : Word := trunc16 (hi.toNat * 256 + lo.toNat)

/-- The byte of a word at the lower address (R71). -/
def highByte (w : Word) : Byte := trunc8 (bitField w 15 8)

/-- The byte of a word at the higher address (R71). -/
def lowByte (w : Word) : Byte := trunc8 (bitField w 7 0)

/-! ### The opcode map -/

/-- One row of the opcode map: a word `w` is the instruction when `(w & mask) = pattern` (R94). -/
structure OpcodeRow where
  name : String
  pattern : Word
  mask : Word
deriving DecidableEq, Repr

/-- The row of R94 an instruction belongs to. -/
def Instr.row : Instr → OpcodeRow
  | .cls => ⟨"CLS", 0x00E0, 0xFFFF⟩
  | .ret => ⟨"RET", 0x00EE, 0xFFFF⟩
  | .jp _ => ⟨"JP NNN", 0x1000, 0xF000⟩
  | .call _ => ⟨"CALL NNN", 0x2000, 0xF000⟩
  | .seImm _ _ => ⟨"SE VX, NN", 0x3000, 0xF000⟩
  | .sneImm _ _ => ⟨"SNE VX, NN", 0x4000, 0xF000⟩
  | .seReg _ _ => ⟨"SE VX, VY", 0x5000, 0xF00F⟩
  | .ldImm _ _ => ⟨"LD VX, NN", 0x6000, 0xF000⟩
  | .addImm _ _ => ⟨"ADD VX, NN", 0x7000, 0xF000⟩
  | .ldReg _ _ => ⟨"LD VX, VY", 0x8000, 0xF00F⟩
  | .orReg _ _ => ⟨"OR VX, VY", 0x8001, 0xF00F⟩
  | .andReg _ _ => ⟨"AND VX, VY", 0x8002, 0xF00F⟩
  | .xorReg _ _ => ⟨"XOR VX, VY", 0x8003, 0xF00F⟩
  | .addReg _ _ => ⟨"ADD VX, VY", 0x8004, 0xF00F⟩
  | .subReg _ _ => ⟨"SUB VX, VY", 0x8005, 0xF00F⟩
  | .shr _ _ => ⟨"SHR VX, VY", 0x8006, 0xF00F⟩
  | .subn _ _ => ⟨"SUBN VX, VY", 0x8007, 0xF00F⟩
  | .shl _ _ => ⟨"SHL VX, VY", 0x800E, 0xF00F⟩
  | .sneReg _ _ => ⟨"SNE VX, VY", 0x9000, 0xF00F⟩
  | .ldI _ => ⟨"LD I, NNN", 0xA000, 0xF000⟩
  | .jpV0 _ => ⟨"JP V0, NNN", 0xB000, 0xF000⟩
  | .rnd _ _ => ⟨"RND VX, NN", 0xC000, 0xF000⟩
  | .drw _ _ _ => ⟨"DRW VX, VY, N", 0xD000, 0xF000⟩
  | .skp _ => ⟨"SKP VX", 0xE09E, 0xF0FF⟩
  | .sknp _ => ⟨"SKNP VX", 0xE0A1, 0xF0FF⟩
  | .ldVxDt _ => ⟨"LD VX, DT", 0xF007, 0xF0FF⟩
  | .ldVxK _ => ⟨"LD VX, K", 0xF00A, 0xF0FF⟩
  | .ldDtVx _ => ⟨"LD DT, VX", 0xF015, 0xF0FF⟩
  | .ldStVx _ => ⟨"LD ST, VX", 0xF018, 0xF0FF⟩
  | .addI _ => ⟨"ADD I, VX", 0xF01E, 0xF0FF⟩
  | .ldF _ => ⟨"LD F, VX", 0xF029, 0xF0FF⟩
  | .ldB _ => ⟨"LD B, VX", 0xF033, 0xF0FF⟩
  | .ldMemVx _ => ⟨"LD [I], VX", 0xF055, 0xF0FF⟩
  | .ldVxMem _ => ⟨"LD VX, [I]", 0xF065, 0xF0FF⟩

/-- The 34 rows of R94, in the spec's order. -/
def opcodeMap : List OpcodeRow :=
  [Instr.cls.row, Instr.ret.row, (Instr.jp 0).row, (Instr.call 0).row, (Instr.seImm 0 0).row,
    (Instr.sneImm 0 0).row, (Instr.seReg 0 0).row, (Instr.ldImm 0 0).row, (Instr.addImm 0 0).row] ++
  [(Instr.ldReg 0 0).row, (Instr.orReg 0 0).row, (Instr.andReg 0 0).row, (Instr.xorReg 0 0).row,
    (Instr.addReg 0 0).row, (Instr.subReg 0 0).row, (Instr.shr 0 0).row, (Instr.subn 0 0).row,
    (Instr.shl 0 0).row] ++
  [(Instr.sneReg 0 0).row, (Instr.ldI 0).row, (Instr.jpV0 0).row, (Instr.rnd 0 0).row,
    (Instr.drw 0 0 0).row, (Instr.skp 0).row, (Instr.sknp 0).row] ++
  [(Instr.ldVxDt 0).row, (Instr.ldVxK 0).row, (Instr.ldDtVx 0).row, (Instr.ldStVx 0).row,
    (Instr.addI 0).row, (Instr.ldF 0).row, (Instr.ldB 0).row, (Instr.ldMemVx 0).row,
    (Instr.ldVxMem 0).row]

/-! ### The decoder -/

/-- Why a list of bytes holds no instruction. -/
inductive DecodeError where
  /-- the word matches no row of R94 (R96, R251) -/
  | unknownOpcode (w : Word)
  /-- fewer than the two bytes of an instruction word (R90) -/
  | tooShort
deriving DecidableEq, Repr

/-- Family 0x0 dispatches on the whole word (R93). -/
def decodeFamily0 (w : Word) : Except DecodeError Instr :=
  match w.toNat with
  | 0x00E0 => .ok .cls
  | 0x00EE => .ok .ret
  | _ => .error (.unknownOpcode w)

/-- Family 0x5: the low nibble is fixed to 0 (R93, C3). -/
def decodeFamily5 (w : Word) : Except DecodeError Instr :=
  match fieldN w with
  | 0 => .ok (.seReg (fieldX w) (fieldY w))
  | _ => .error (.unknownOpcode w)

/-- Family 0x8 dispatches on the low nibble (R93). -/
def decodeFamily8 (w : Word) : Except DecodeError Instr :=
  let x := fieldX w
  let y := fieldY w
  match fieldN w with
  | 0x0 => .ok (.ldReg x y)
  | 0x1 => .ok (.orReg x y)
  | 0x2 => .ok (.andReg x y)
  | 0x3 => .ok (.xorReg x y)
  | 0x4 => .ok (.addReg x y)
  | 0x5 => .ok (.subReg x y)
  | 0x6 => .ok (.shr x y)
  | 0x7 => .ok (.subn x y)
  | 0xE => .ok (.shl x y)
  | _ => .error (.unknownOpcode w)

/-- Family 0x9: the low nibble is fixed to 0 (R93, C3). -/
def decodeFamily9 (w : Word) : Except DecodeError Instr :=
  match fieldN w with
  | 0 => .ok (.sneReg (fieldX w) (fieldY w))
  | _ => .error (.unknownOpcode w)

/-- Family 0xE dispatches on the low byte (R93). -/
def decodeFamilyE (w : Word) : Except DecodeError Instr :=
  match bitField w 7 0 with
  | 0x9E => .ok (.skp (fieldX w))
  | 0xA1 => .ok (.sknp (fieldX w))
  | _ => .error (.unknownOpcode w)

/-- Family 0xF dispatches on the low byte (R93). -/
def decodeFamilyF (w : Word) : Except DecodeError Instr :=
  let x := fieldX w
  match bitField w 7 0 with
  | 0x07 => .ok (.ldVxDt x)
  | 0x0A => .ok (.ldVxK x)
  | 0x15 => .ok (.ldDtVx x)
  | 0x18 => .ok (.ldStVx x)
  | 0x1E => .ok (.addI x)
  | 0x29 => .ok (.ldF x)
  | 0x33 => .ok (.ldB x)
  | 0x55 => .ok (.ldMemVx x)
  | 0x65 => .ok (.ldVxMem x)
  | _ => .error (.unknownOpcode w)

/-- The decoder: total on the 65536 words, by family (R93, R95, R123). -/
def decode (w : Word) : Except DecodeError Instr :=
  match fieldFamily w with
  | 0x0 => decodeFamily0 w
  | 0x1 => .ok (.jp (fieldNNN w))
  | 0x2 => .ok (.call (fieldNNN w))
  | 0x3 => .ok (.seImm (fieldX w) (fieldNN w))
  | 0x4 => .ok (.sneImm (fieldX w) (fieldNN w))
  | 0x5 => decodeFamily5 w
  | 0x6 => .ok (.ldImm (fieldX w) (fieldNN w))
  | 0x7 => .ok (.addImm (fieldX w) (fieldNN w))
  | 0x8 => decodeFamily8 w
  | 0x9 => decodeFamily9 w
  | 0xA => .ok (.ldI (fieldNNN w))
  | 0xB => .ok (.jpV0 (fieldNNN w))
  | 0xC => .ok (.rnd (fieldX w) (fieldNN w))
  | 0xD => .ok (.drw (fieldX w) (fieldY w) (fieldN w))
  | 0xE => decodeFamilyE w
  | 0xF => decodeFamilyF w
  | _ => .error (.unknownOpcode w) -- no word: a family is one of the 16

/-- The decoder on bytes in memory order: the instruction and the bytes after it (R68, R90). -/
def decodeBytes : List Byte → Except DecodeError (Instr × List Byte)
  | hi :: lo :: rest =>
    match decode (wordOfBytes hi lo) with
    | .ok i => .ok (i, rest)
    | .error e => .error e
  | _ => .error .tooShort

/-- The instruction the decoder reads from the opcode table's word `w` of `nbits` bits: its two bytes
as memory holds them, given to the decoder. Every row of the table is one 16-bit word (R90). -/
def decodeTableWord (nbits w : Nat) : Option Instr :=
  let word := trunc16 (w % 2 ^ nbits)
  match decodeBytes [highByte word, lowByte word] with
  | .ok (i, _) => some i
  | .error _ => none

/-! ### The encoder -/

/-- A word from its family nibble and a 12-bit `NNN` (R91). -/
def wordNNN (family : Nat) (nnn : Word) : Word := trunc16 (family * 4096 + nnn.toNat)

/-- A word from its family nibble, `X` and `NN` (R91). -/
def wordXNN (family : Nat) (x : Reg) (nn : Byte) : Word :=
  trunc16 (family * 4096 + x.val * 256 + nn.toNat)

/-- A word from its family nibble, `X`, `Y` and the low nibble (R91). -/
def wordXYN (family : Nat) (x y : Reg) (n : Nat) : Word :=
  trunc16 (family * 4096 + x.val * 256 + y.val * 16 + n)

/-- The word of an instruction (R94). -/
def encode : Instr → Word
  | .cls => 0x00E0
  | .ret => 0x00EE
  | .jp nnn => wordNNN 0x1 nnn
  | .call nnn => wordNNN 0x2 nnn
  | .seImm x nn => wordXNN 0x3 x nn
  | .sneImm x nn => wordXNN 0x4 x nn
  | .seReg x y => wordXYN 0x5 x y 0x0
  | .ldImm x nn => wordXNN 0x6 x nn
  | .addImm x nn => wordXNN 0x7 x nn
  | .ldReg x y => wordXYN 0x8 x y 0x0
  | .orReg x y => wordXYN 0x8 x y 0x1
  | .andReg x y => wordXYN 0x8 x y 0x2
  | .xorReg x y => wordXYN 0x8 x y 0x3
  | .addReg x y => wordXYN 0x8 x y 0x4
  | .subReg x y => wordXYN 0x8 x y 0x5
  | .shr x y => wordXYN 0x8 x y 0x6
  | .subn x y => wordXYN 0x8 x y 0x7
  | .shl x y => wordXYN 0x8 x y 0xE
  | .sneReg x y => wordXYN 0x9 x y 0x0
  | .ldI nnn => wordNNN 0xA nnn
  | .jpV0 nnn => wordNNN 0xB nnn
  | .rnd x nn => wordXNN 0xC x nn
  | .drw x y n => wordXYN 0xD x y n
  | .skp x => wordXNN 0xE x 0x9E
  | .sknp x => wordXNN 0xE x 0xA1
  | .ldVxDt x => wordXNN 0xF x 0x07
  | .ldVxK x => wordXNN 0xF x 0x0A
  | .ldDtVx x => wordXNN 0xF x 0x15
  | .ldStVx x => wordXNN 0xF x 0x18
  | .addI x => wordXNN 0xF x 0x1E
  | .ldF x => wordXNN 0xF x 0x29
  | .ldB x => wordXNN 0xF x 0x33
  | .ldMemVx x => wordXNN 0xF x 0x55
  | .ldVxMem x => wordXNN 0xF x 0x65

end Sys2Proof
end

