-- ==== Sys2Proof/Config.lean ====
section
/-! DEFINITION. The two model inputs of R6: the glyph table's default, and the free random bytes. -/

namespace Sys2Proof.Config

/-- The random bytes handed to `CXNN`, one for each draw. The spec gives no generator, seed or
distribution and asks for a free byte (R47, R171, D5, U10), so this has no body: nothing can be
proved of any value of it. Assumption 2. -/
opaque freeByte : Nat → Byte

/-- The DEFAULT of the parameter `GLYPHS` (R42): glyph `d` is the five bytes from `5 * d`, top row
first. PRESUMED: the spec supplies these bytes from general knowledge (K1, D4). Only
`State.reset` uses them; every other definition takes the glyph bytes as data. Assumption 1. -/
def defaultGlyphs : Vector Byte 80 := #v[
  0xF0, 0x90, 0x90, 0x90, 0xF0,   0x20, 0x60, 0x20, 0x20, 0x70,
  0xF0, 0x10, 0xF0, 0x80, 0xF0,   0xF0, 0x10, 0xF0, 0x10, 0xF0,
  0x90, 0x90, 0xF0, 0x10, 0x10,   0xF0, 0x80, 0xF0, 0x10, 0xF0,
  0xF0, 0x80, 0xF0, 0x90, 0xF0,   0xF0, 0x10, 0x20, 0x40, 0x40,
  0xF0, 0x90, 0xF0, 0x90, 0xF0,   0xF0, 0x90, 0xF0, 0x10, 0xF0,
  0xF0, 0x90, 0xF0, 0x90, 0x90,   0xE0, 0x90, 0xE0, 0x90, 0xE0,
  0xF0, 0x80, 0x80, 0x80, 0xF0,   0xE0, 0x90, 0x90, 0x90, 0xE0,
  0xF0, 0x80, 0xF0, 0x80, 0xF0,   0xF0, 0x80, 0xF0, 0x80, 0x80]

end Sys2Proof.Config
end

