-- ==== Sys2Proof/Machine/State.lean ====
section
/-! DEFINITION. Fatal errors, memory, the machine's state (R44) and the state after reset. -/

namespace Sys2Proof.Machine

/-! ### Fatal errors -/

/-- The six causes of `OutOfBounds` (R254). -/
inductive Cause where
  /-- an instruction fetch with `PC + 1 > 0xFFF` (R68) -/
  | fetch
  /-- a data read above 0xFFF (R66) -/
  | read
  /-- a data store above 0xFFF (R67) -/
  | write
  /-- a data store into the glyph region 0x000 to 0x04F (R64, R67) -/
  | glyphWrite
  /-- a set sprite bit off the 64 by 32 grid (R213) -/
  | pixel
  /-- a key index above 15 (R236) -/
  | key
deriving DecidableEq, Repr

/-- The four kinds of fatal error (R250). -/
inductive FatalKind where
  /-- the fetched word matches no row of the opcode map; the record holds the word (R251) -/
  | unknownOpcode
  /-- `2NNN` with 16 live entries (R252) -/
  | stackOverflow
  /-- `00EE` with none (R253) -/
  | stackUnderflow
  /-- an access outside a declared array, with the failing address, `x + y*64` for `pixel`, or the
  value of `V[X]` for `key` (R254, R255) -/
  | outOfBounds (cause : Cause) (addr : Nat)
deriving DecidableEq, Repr

/-- The fatal-error record (R255). Its `code` is a function of its kind (`FatalKind.code`). -/
structure FatalRecord where
  kind : FatalKind
  /-- the address of the faulting instruction -/
  pc : Word
  /-- the fetched word, none where the fetch itself failed -/
  word : Option Word
deriving DecidableEq, Repr

/-- How the machine stops. -/
inductive Fault where
  /-- Raised by `step` alone, when the fault latch already holds a record: the call returns that
  record and changes nothing (R121, R259). SAFE: the machine really does nothing more. The step that
  RAISES a fatal error is no fault of this type: it is a next state whose latch is set (R126). -/
  | fatalError (r : FatalRecord)
deriving DecidableEq, Repr

/-- What the model gives no meaning. -/
inductive Refusal where
  /-- Raised by an arm of `exec` for an instruction without a meaning, by name. No arm does. SAFE. -/
  | notModelled (mnemonic : String)
deriving DecidableEq, Repr

/-- What `State.load` rejects (R284). -/
inductive LoadError where
  /-- no image was given -/
  | noImage
deriving DecidableEq, Repr

/-! ### Memory -/

/-- The 4096 bytes of R60. The glyph region 0x000 to 0x04F is read-only to programs (R64), so its
bytes, the parameter `GLYPHS` of R42, stand apart from the writable bytes. A writable byte is listed
in `cells` exactly where it is not 0; `Memory.wf` says so. -/
structure Memory where
  /-- M[0x000..0x04F] -/
  glyphs : Vector Byte 80
  /-- the bytes of M[0x050..0xFFF] that are not 0, by rising address -/
  cells : List Host.Cell
deriving DecidableEq, Repr

/-! ### State -/

/-- The framebuffer: pixel `(x, y)` is cell `x + y*64`; `true` is 1 (R34). -/
abbrev Framebuffer := Vector Bool 2048

/-- Every state element of R44, then the model's own two fields for the free byte `rnd` (R6). -/
structure State where
  /-- V[0..15] (R20) -/
  v : Vector Byte 16
  /-- the index register I (R24) -/
  i : Word
  /-- the program counter (R26) -/
  pc : Word
  /-- STACK[0..15]; entries at SP and above are dead (R29) -/
  stack : Vector Word 16
  /-- SP, the count of live entries, 0 to 16 (R29) -/
  sp : Fin 17
  /-- the delay timer (R32) -/
  dt : Byte
  /-- the sound timer (R33) -/
  st : Byte
  /-- KEY[0..15]; `true` is pressed (R36) -/
  key : Vector Bool 16
  /-- FB[0..2047] (R34) -/
  fb : Framebuffer
  /-- REDRAW (R37) -/
  redraw : Bool
  /-- FAULT, the fault latch (R39) -/
  fault : Option FatalRecord
  /-- M (R42, R60) -/
  mem : Memory
  /-- MODEL'S OWN: the byte `rnd` that the next `CXNN` reads (R47). Assumption 2. -/
  rnd : Byte
  /-- MODEL'S OWN: how many free bytes have been taken from `Config.freeByte`. Assumption 2. -/
  draws : Nat
deriving DecidableEq, Repr

/-- What one step, or one instruction, answers. -/
abbrev Outcome := Host.Outcome State Fault Refusal

/-- The reset state of R44 with the given glyph bytes and no program: what `initialize` builds from
an empty image (R280). The last two fields are the model's own (assumption 3). -/
def State.resetWith (glyphs : Vector Byte 80) : State where
  v := Vector.replicate 16 0
  i := 0
  pc := 0x200
  stack := Vector.replicate 16 0
  sp := 0
  dt := 0
  st := 0
  key := Vector.replicate 16 false
  fb := Vector.replicate 2048 false
  redraw := false
  fault := none
  mem := { glyphs := glyphs, cells := [] }
  rnd := Config.freeByte 0
  draws := 1

/-- The machine right after reset, with the default glyph bytes of R42 (assumption 1). A program is
loaded from outside: `State.load` (assumption 6). -/
def State.reset : State := State.resetWith Config.defaultGlyphs

end Sys2Proof.Machine
end

