-- ==== Sys2Proof/Machine/Ops.lean ====
section
/-! DEFINITION. The operations every instruction is made of: memory (R60 to R69), registers, the call
stack (R30), the framebuffer's write port (R35), the timer tick (R127), the instruction fetch (R68) and
taking a fatal error (R126, R255). -/

namespace Sys2Proof.Machine

/-! ### Memory -/

/-- The byte listed at an address, if one is. -/
def lookupCell (a : Nat) : List Host.Cell → Option Byte
  | [] => none
  | c :: cs => if c.1 = a then some c.2 else lookupCell a cs

/-- List `v` at `a`, keeping the addresses rising. -/
def insertCell (a : Nat) (v : Byte) : List Host.Cell → List Host.Cell
  | [] => [(a, v)]
  | c :: cs =>
    if a < c.1 then (a, v) :: c :: cs
    else if c.1 = a then (a, v) :: cs
    else c :: insertCell a v cs

/-- List nothing at `a`. -/
def eraseCell (a : Nat) (cs : List Host.Cell) : List Host.Cell := cs.filter (fun c => c.1 ≠ a)

/-- What an unlisted address reads as: the glyph bytes at 0x000 to 0x04F, 0 everywhere else (R44).
Assumption 8. -/
def Memory.unlisted (m : Memory) (a : Nat) : Byte := if h : a < 80 then m.glyphs[a] else 0

/-- The byte at an address, `M[a]`. -/
def Memory.get (m : Memory) (a : Nat) : Byte := (lookupCell a m.cells).getD (m.unlisted a)

/-- `M[a] <- v` for a writable address, in the canonical form: a byte that the address reads as
anyhow is not listed. -/
def Memory.set (m : Memory) (a : Nat) (v : Byte) : Memory :=
  if v = m.unlisted a then { m with cells := eraseCell a m.cells }
  else { m with cells := insertCell a v m.cells }

/-- The canonical form: listed addresses rise strictly, each is a writable address of the memory, and
none holds what it would read as unlisted. -/
abbrev Memory.wf (m : Memory) : Prop :=
  m.cells.Pairwise (fun c d => c.1 < d.1) ∧
    ∀ c ∈ m.cells, 0x050 ≤ c.1 ∧ c.1 ≤ 0xFFF ∧ c.2 ≠ m.unlisted c.1

/-- `MemRead(a, 1)` (R66). The address is an exact integer: it never wraps (R69, D9). -/
def memRead (m : Memory) (a : Nat) : Except FatalKind Byte :=
  if 0xFFF < a then .error (.outOfBounds .read a) else .ok (m.get a)

/-- `MemWrite(a, 1, v)` (R67): above the memory and in the glyph region it raises (D9, D10). -/
def memWrite (m : Memory) (a : Nat) (v : Byte) : Except FatalKind Memory :=
  if 0xFFF < a then .error (.outOfBounds .write a)
  else if a ≤ 0x04F then .error (.outOfBounds .glyphWrite a)
  else .ok (m.set a v)

/-- `n` bytes from `a` up, each checked in increasing order (R9, R257). -/
def loadBytes (m : Memory) (a : Nat) : Nat → Except FatalKind (List Byte)
  | 0 => .ok []
  | n + 1 =>
    match memRead m a with
    | .error e => .error e
    | .ok b =>
      match loadBytes m (a + 1) n with
      | .error e => .error e
      | .ok bs => .ok (b :: bs)

/-- Store bytes from `a` up, each checked in increasing order; an error stores none (R126, R257). -/
def storeBytes (m : Memory) (a : Nat) : List Byte → Except FatalKind Memory
  | [] => .ok m
  | b :: bs =>
    match memWrite m a b with
    | .error e => .error e
    | .ok m' => storeBytes m' (a + 1) bs

/-! ### Registers -/

/-- Read `V[r]` (R9, R20). -/
def State.reg (s : State) (r : Reg) : Byte := s.v[r.val]

/-- `V[r] <- b` (R9). No register is hardwired (R20). -/
def State.setReg (s : State) (r : Reg) (b : Byte) : State := { s with v := s.v.set r.val b }

/-- `I <- a`. -/
def State.setIndex (s : State) (a : Word) : State := { s with i := a }

/-- `PC <- a`. -/
def State.setPc (s : State) (a : Word) : State := { s with pc := a }

/-- `PC <- pc0 + 2`, the update of a sequential instruction (R125). A step runs an instruction only
at `pc0 ≤ 0xFFE`, so the sum is exact there (R129). -/
def State.advance (s : State) : State := s.setPc (s.pc + 2)

/-- `PC <- pc0 + 4` if the condition holds, else `PC <- pc0 + 2`, the update of a skip (R125). -/
def State.skipIf (s : State) (c : Bool) : State := s.setPc (s.pc + if c then 4 else 2)

/-- `DT <- b`. -/
def State.setDelay (s : State) (b : Byte) : State := { s with dt := b }

/-- `ST <- b`. -/
def State.setSound (s : State) (b : Byte) : State := { s with st := b }

/-- Replace the memory. -/
def State.setMem (s : State) (m : Memory) : State := { s with mem := m }

/-- `V[k], V[k+1], … <-` the bytes, as far as there are registers (R195). -/
def writeRegs (v : Vector Byte 16) (k : Nat) : List Byte → Vector Byte 16
  | [] => v
  | b :: bs => writeRegs (v.setIfInBounds k b) (k + 1) bs

/-- Load the bytes into `V[0]` up (R195). -/
def State.setRegs (s : State) (bs : List Byte) : State := { s with v := writeRegs s.v 0 bs }

/-- Take the free byte: the next draw comes from `Config.freeByte` (R47, R171; assumption 2). -/
def State.drawRnd (s : State) : State :=
  { s with rnd := Config.freeByte s.draws, draws := s.draws + 1 }

/-! ### The call stack -/

/-- `Push(a)` (R30): raises on a full stack. -/
def State.push (s : State) (a : Word) : Except FatalKind State :=
  if h : s.sp.val < 16 then
    .ok { s with stack := s.stack.set s.sp.val a, sp := ⟨s.sp.val + 1, by omega⟩ }
  else .error .stackOverflow

/-- `Pop()` (R30): raises on an empty stack; the popped entry keeps its value, dead (R29, R140). -/
def State.pop (s : State) : Except FatalKind (Word × State) :=
  if h : s.sp.val = 0 then .error .stackUnderflow
  else
    .ok (s.stack[s.sp.val - 1]'(by omega), { s with sp := ⟨s.sp.val - 1, by omega⟩ })

/-! ### The framebuffer's write port -/

/-- `FbClear()` (R35). -/
def fbClear : Framebuffer := Vector.replicate 2048 false

/-- `FbFlip(x, y)` (R35): XOR the pixel with 1 and answer its old value. Off the grid it raises: no
wrap, no clip, no run into the next row (R213, D18). -/
def fbFlip (fb : Framebuffer) (x y : Nat) : Except FatalKind (Framebuffer × Bool) :=
  if h : x ≤ 63 ∧ y ≤ 31 then
    .ok (fb.set (x + y * 64) (!(fb[x + y * 64]'(by omega))) (by omega), fb[x + y * 64]'(by omega))
  else .error (.outOfBounds .pixel (x + y * 64))

/-- XOR one row of sprite bits, leftmost first, from `(x, y)` on: only set bits are checked and
flipped, and `collide` becomes true when one lands on a 1 (R211, R214). -/
def drawRow (fb : Framebuffer) (collide : Bool) (x y : Nat) :
    List Bool → Except FatalKind (Framebuffer × Bool)
  | [] => .ok (fb, collide)
  | false :: bits => drawRow fb collide (x + 1) y bits
  | true :: bits =>
    match fbFlip fb x y with
    | .error e => .error e
    | .ok (fb', old) => drawRow fb' (collide || old) (x + 1) y bits

/-- Replace the framebuffer and set `REDRAW` (R37, R215). -/
def State.setScreen (s : State) (fb : Framebuffer) : State := { s with fb := fb, redraw := true }

/-! ### Keys -/

/-- The least pressed key, none if no key is pressed (R235). -/
def State.firstKey (s : State) : Option Key := (List.finRange 16).find? (fun k => s.key[k.val])

/-! ### The timer tick -/

/-- One timer toward zero, stopping there (R127). -/
def tickDown (t : Byte) : Byte := if t = 0 then 0 else t - 1

/-- `TimerTick()` (R127). -/
def State.tick (s : State) : State := { s with dt := tickDown s.dt, st := tickDown s.st }

/-! ### The instruction fetch -/

/-- `Fetch(pc)` (R68): two bytes, big-endian, with `pc + 1 ≤ 0xFFF` required. -/
def fetchWord (s : State) : Except FatalKind Word :=
  if 0xFFF < s.pc.toNat + 1 then .error (.outOfBounds .fetch (s.pc.toNat + 1))
  else .ok (wordOfBytes (s.mem.get s.pc.toNat) (s.mem.get (s.pc.toNat + 1)))

/-! ### Taking a fatal error -/

/-- The numeric code of a kind (R250, D24). -/
def FatalKind.code : FatalKind → Nat
  | .unknownOpcode => 1
  | .stackOverflow => 2
  | .stackUnderflow => 3
  | .outOfBounds _ _ => 4

/-- The word of the record: the instruction word at PC, none where its fetch fails (R255). A raising
instruction has written nothing and PC is still `pc0`, so this is the word the step fetched
(R126; assumption 5). -/
def fetchedWord (s : State) : Option Word :=
  match fetchWord s with
  | .ok w => some w
  | .error _ => none

/-- `record(E, info, pc = pc0, word = w if fetched)` (R120, R255). -/
def fatalRecord (e : FatalKind) (s : State) : FatalRecord :=
  { kind := e, pc := s.pc, word := fetchedWord s }

/-- Take a fatal error in the state the step began in: nothing but `FAULT` is written, PC keeps
`pc0`, there is no vector and no return (R126, R256, R258, R259; assumption 4). -/
def raise (e : FatalKind) (s : State) : Outcome := .next { s with fault := some (fatalRecord e s) }

/-- End an instruction that may raise: its writes as a whole, or the fatal error in the state before
it (R126). -/
def commit (s : State) : Except FatalKind State → Outcome
  | .ok t => .next t
  | .error e => raise e s

end Sys2Proof.Machine
end

