-- ==== Sys2Proof/Machine/Flags.lean ====
section
/-! DEFINITION. The values `VF` receives as a flag, and the flag write itself. The seven instructions
that make it do so always, as their last register write (R10, R22). -/

namespace Sys2Proof.Machine

/-- `bool(c)`: 1 if the condition holds, else 0 (R9). -/
def flagByte (c : Bool) : Byte := if c then 1 else 0

/-- `V[0xF] <- bool(c)` (R22). -/
def State.setFlag (s : State) (c : Bool) : State := s.setReg vf (flagByte c)

/-- `8XY4`: the exact sum exceeds 255 (R166). -/
def carryOut (a b : Byte) : Bool := decide (255 < a.toNat + b.toNat)

/-- `8XY5` and, with its operands swapped, `8XY7`: no borrow, that is `a ≥ b` (R167, R169). -/
def notBorrow (a b : Byte) : Bool := decide (b.toNat ≤ a.toNat)

/-- `8XY6`: the old bit 0 (R168). -/
def shiftedOutLow (a : Byte) : Bool := decide (a.toNat % 2 = 1)

/-- `8XYE`: the old bit 7 (R170). -/
def shiftedOutHigh (a : Byte) : Bool := decide (a.toNat / 128 = 1)

/-- `FX1E`: the exact sum exceeds 0xFFFF (R191, D6). -/
def indexOverflow (i : Word) (b : Byte) : Bool := decide (0xFFFF < i.toNat + b.toNat)

end Sys2Proof.Machine
end

