-- ==== Sys2Proof/Machine/Operands.lean ====
section
/-! DEFINITION. The operand forms: registers and immediates are read directly (R92); here stand the
computed ones, the address `I + k` (R69), a key index (R236), the bits of a sprite row (R212), the
digits of `FX33` (R193), the glyph offset of `FX29` (R192), the target of `BNNN` (R147) and the
sprite itself (R211). -/

namespace Sys2Proof.Machine

/-- The only addressing mode, `I + k`, as an exact integer (R69). -/
def State.indexed (s : State) (k : Nat) : Nat := s.i.toNat + k

/-- A register value as an index into the key table; above 15 it names no key (R236, D22). -/
def keyIndex (b : Byte) : Except FatalKind Key :=
  if h : b.toNat ≤ 15 then .ok ⟨b.toNat, by omega⟩ else .error (.outOfBounds .key b.toNat)

/-- The registers `V[0]` to `V[x]` (R194). -/
def State.regsUpTo (s : State) (x : Reg) : List Byte := s.v.toList.take (x.val + 1)

/-- Hundreds, tens and ones, in the order they are stored (R193, D20). -/
def bcdDigits (b : Byte) : List Byte :=
  [trunc8 (b.toNat / 100), trunc8 (b.toNat / 10 % 10), trunc8 (b.toNat % 10)]

/-- `V[X] * 5`, with no mask of `V[X]` (R192, D8). -/
def glyphAddress (b : Byte) : Word := trunc16 (b.toNat * 5)

/-- `zext_16(NNN) + V[0]`, exact and not masked to 12 bits (R147, D16). -/
def jumpTarget (nnn : Word) (b : Byte) : Word := trunc16 (nnn.toNat + b.toNat)

/-- The eight bits of a sprite byte from the leftmost pixel on: bit 7 first (R212, D17). -/
def spriteBits (b : Byte) : List Bool :=
  [b.getLsbD 7, b.getLsbD 6, b.getLsbD 5, b.getLsbD 4, b.getLsbD 3, b.getLsbD 2, b.getLsbD 1,
    b.getLsbD 0]

/-- Draw `n` sprite rows read from `a` up, from row `y` down: each row's byte is read and checked, then
its set bits from left to right, before the next row (R211, R257). Answers the framebuffer and
whether a set bit landed on a 1. -/
def drawSprite (m : Memory) (a x y : Nat) :
    Nat → Framebuffer → Bool → Except FatalKind (Framebuffer × Bool)
  | 0, fb, collide => .ok (fb, collide)
  | n + 1, fb, collide =>
    match memRead m a with
    | .error e => .error e
    | .ok row =>
      match drawRow fb collide x y (spriteBits row) with
      | .error e => .error e
      | .ok (fb', collide') => drawSprite m (a + 1) x (y + 1) n fb' collide'

end Sys2Proof.Machine
end

