-- ==== Sys2Proof/Machine/Alu.lean ====
section
/-! DEFINITION. Register loads, arithmetic, logic, shifts and random (42_alu.md, R160 to R175). Operands
are the register values before anything is written; sums and differences are exact and then cut to 8
bits (R8, R10, R172). -/

namespace Sys2Proof.Machine

/-- Write `V[X]`, then go on (R21). -/
def writeResult (x : Reg) (b : Byte) (s : State) : Outcome := .next (s.setReg x b).advance

/-- Write `V[X]`, then VF as the flag, then go on: with `X = 0xF` the flag stays (R10, R22). -/
def writeResultFlag (x : Reg) (b : Byte) (flag : Bool) (s : State) : Outcome :=
  .next ((s.setReg x b).setFlag flag).advance

/-- `6XNN`, load immediate (R160). -/
def execLdImm (x : Reg) (nn : Byte) (s : State) : Outcome := writeResult x nn s

/-- `7XNN`, add immediate; no flag (R161). -/
def execAddImm (x : Reg) (nn : Byte) (s : State) : Outcome :=
  writeResult x (trunc8 ((s.reg x).toNat + nn.toNat)) s

/-- `8XY0`, copy register (R162). -/
def execLdReg (x y : Reg) (s : State) : Outcome := writeResult x (s.reg y) s

/-- `8XY1`, OR; VF is not reset (R163). -/
def execOrReg (x y : Reg) (s : State) : Outcome := writeResult x (s.reg x ||| s.reg y) s

/-- `8XY2`, AND; VF is not reset (R164). -/
def execAndReg (x y : Reg) (s : State) : Outcome := writeResult x (s.reg x &&& s.reg y) s

/-- `8XY3`, XOR; VF is not reset (R165). -/
def execXorReg (x y : Reg) (s : State) : Outcome := writeResult x (s.reg x ^^^ s.reg y) s

/-- `8XY4`, add with carry out (R166). -/
def execAddReg (x y : Reg) (s : State) : Outcome :=
  writeResultFlag x (trunc8 ((s.reg x).toNat + (s.reg y).toNat)) (carryOut (s.reg x) (s.reg y)) s

/-- The 8-bit difference `(a - b) mod 256` (R167). -/
def difference (a b : Byte) : Byte := trunc8 (a.toNat + 256 - b.toNat)

/-- `8XY5`, subtract with not-borrow (R167). -/
def execSubReg (x y : Reg) (s : State) : Outcome :=
  writeResultFlag x (difference (s.reg x) (s.reg y)) (notBorrow (s.reg x) (s.reg y)) s

/-- `8XY6`, shift right by one; the `Y` field is not read (R98, R168). -/
def execShr (x _y : Reg) (s : State) : Outcome :=
  writeResultFlag x (trunc8 ((s.reg x).toNat / 2)) (shiftedOutLow (s.reg x)) s

/-- `8XY7`, reverse subtract with not-borrow (R169). -/
def execSubn (x y : Reg) (s : State) : Outcome :=
  writeResultFlag x (difference (s.reg y) (s.reg x)) (notBorrow (s.reg y) (s.reg x)) s

/-- `8XYE`, shift left by one; the `Y` field is not read (R98, R170). -/
def execShl (x _y : Reg) (s : State) : Outcome :=
  writeResultFlag x (trunc8 ((s.reg x).toNat * 2)) (shiftedOutHigh (s.reg x)) s

/-- `CXNN`, the random byte under a mask (R171); it takes the byte, so the next `CXNN` reads another
(assumption 2). -/
def execRnd (x : Reg) (nn : Byte) (s : State) : Outcome := writeResult x (s.rnd &&& nn) s.drawRnd

end Sys2Proof.Machine
end

