-- ==== Sys2Proof/Machine/Display.lean ====
section
/-! DEFINITION. Display instructions (44_display.md, R210 to R216). -/

namespace Sys2Proof.Machine

/-- `00E0`, clear the screen; REDRAW is set even when it was clear (R210). -/
def execCls (s : State) : Outcome := .next (s.setScreen fbClear).advance

/-- `DXYN`, draw an 8 by N sprite by XOR (R211): the coordinates are read before VF is written, VF is
written last, and REDRAW is set on every completed draw (R215, D19). -/
def execDrw (x y : Reg) (n : Nat) (s : State) : Outcome :=
  commit s <|
    match drawSprite s.mem (s.indexed 0) (s.reg x).toNat (s.reg y).toNat n s.fb false with
    | .error e => .error e
    | .ok (fb, collide) => .ok ((s.setScreen fb).setFlag collide).advance

end Sys2Proof.Machine
end

