-- ==== Sys2Proof/Machine/Flow.lean ====
section
/-! DEFINITION. Control flow and skips (41_flow.md, R140 to R149). A target is never checked when the
transfer executes; a bad one faults at the next fetch (R149). -/

namespace Sys2Proof.Machine

/-- `00EE`, return (R140). -/
def execRet (s : State) : Outcome :=
  commit s <|
    match s.pop with
    | .error e => .error e
    | .ok (a, t) => .ok (t.setPc a)

/-- `1NNN`, jump (R141). -/
def execJp (nnn : Word) (s : State) : Outcome := .next (s.setPc nnn)

/-- `2NNN`, call: the return address pushed is `pc0 + 2` (R142, D7). -/
def execCall (nnn : Word) (s : State) : Outcome :=
  commit s <|
    match s.push (s.pc + 2) with
    | .error e => .error e
    | .ok t => .ok (t.setPc nnn)

/-- `3XNN`, skip if equal to immediate (R143). -/
def execSeImm (x : Reg) (nn : Byte) (s : State) : Outcome := .next (s.skipIf (s.reg x == nn))

/-- `4XNN`, skip if not equal to immediate (R144). -/
def execSneImm (x : Reg) (nn : Byte) (s : State) : Outcome := .next (s.skipIf (s.reg x != nn))

/-- `5XY0`, skip if registers equal (R145). -/
def execSeReg (x y : Reg) (s : State) : Outcome := .next (s.skipIf (s.reg x == s.reg y))

/-- `9XY0`, skip if registers differ (R146). -/
def execSneReg (x y : Reg) (s : State) : Outcome := .next (s.skipIf (s.reg x != s.reg y))

/-- `BNNN`, jump to address plus V0, always V0 (R147). -/
def execJpV0 (nnn : Word) (s : State) : Outcome := .next (s.setPc (jumpTarget nnn (s.reg 0)))

end Sys2Proof.Machine
end

