-- ==== Sys2Proof/Machine/IndexMemory.lean ====
section
/-! DEFINITION. Index register and memory instructions (43_index_memory.md, R190 to R196). -/

namespace Sys2Proof.Machine

/-- `ANNN`, load index (R190). -/
def execLdI (nnn : Word) (s : State) : Outcome := .next (s.setIndex nnn).advance

/-- `FX1E`, add register to index, with flag: 16 bits, not cut to 12 (R191, D6). -/
def execAddI (x : Reg) (s : State) : Outcome :=
  .next ((s.setIndex (trunc16 (s.i.toNat + (s.reg x).toNat))).setFlag
    (indexOverflow s.i (s.reg x))).advance

/-- `FX29`, point index at a glyph (R192). -/
def execLdF (x : Reg) (s : State) : Outcome := .next (s.setIndex (glyphAddress (s.reg x))).advance

/-- Store bytes from `I` up, then go on; `I` is unchanged, and an error stores none (R126, R196). -/
def storeAtIndex (bs : List Byte) (s : State) : Outcome :=
  commit s <|
    match storeBytes s.mem (s.indexed 0) bs with
    | .error e => .error e
    | .ok m => .ok (s.setMem m).advance

/-- `FX33`, store BCD digits (R193). -/
def execLdB (x : Reg) (s : State) : Outcome := storeAtIndex (bcdDigits (s.reg x)) s

/-- `FX55`, store registers V0 to VX (R194). -/
def execLdMemVx (x : Reg) (s : State) : Outcome := storeAtIndex (s.regsUpTo x) s

/-- `FX65`, load registers V0 to VX (R195). -/
def execLdVxMem (x : Reg) (s : State) : Outcome :=
  commit s <|
    match loadBytes s.mem (s.indexed 0) (x.val + 1) with
    | .error e => .error e
    | .ok bs => .ok (s.setRegs bs).advance

end Sys2Proof.Machine
end

