-- ==== Sys2Proof/Machine/KeysTimers.lean ====
section
/-! DEFINITION. Key and timer instructions (45_timers_keys.md, R230 to R237). The timer tick that follows
a completed instruction belongs to the step (R127, `finish`). -/

namespace Sys2Proof.Machine

/-- `EX9E`, skip if key `V[X]` is pressed (R230). -/
def execSkp (x : Reg) (s : State) : Outcome :=
  commit s <|
    match keyIndex (s.reg x) with
    | .error e => .error e
    | .ok k => .ok (s.skipIf s.key[k.val])

/-- `EXA1`, skip if key `V[X]` is not pressed (R231). -/
def execSknp (x : Reg) (s : State) : Outcome :=
  commit s <|
    match keyIndex (s.reg x) with
    | .error e => .error e
    | .ok k => .ok (s.skipIf (!s.key[k.val]))

/-- `FX07`, read the delay timer, before this step's tick (R232). -/
def execLdVxDt (x : Reg) (s : State) : Outcome := .next (s.setReg x s.dt).advance

/-- `FX15`, set the delay timer; the tick of the same step follows (R233). -/
def execLdDtVx (x : Reg) (s : State) : Outcome := .next (s.setDelay (s.reg x)).advance

/-- `FX18`, set the sound timer; the tick of the same step follows (R234). -/
def execLdStVx (x : Reg) (s : State) : Outcome := .next (s.setSound (s.reg x)).advance

/-- `FX0A`, wait for a key (R235): the least pressed key's index, or, with no key pressed, nothing at
all (the step is blocked, and `finish` runs no tick; the key's level is what counts, D23). -/
def execLdVxK (x : Reg) (s : State) : Outcome :=
  match s.firstKey with
  | some k => .next (s.setReg x (trunc8 k.val)).advance
  | none => .next s

end Sys2Proof.Machine
end

