-- ==== Sys2Proof/Machine/Cycle.lean ====
section
/-! DEFINITION. One cycle on a machine whose fault latch is clear: fetch, decode, execute, timer tick
(R120). `Step.lean` checks the latch and calls it. -/

namespace Sys2Proof.Machine

/-- `Execute` returns `blocked`: `FX0A` with no key pressed, and nothing else (R120, R235). -/
def blocked (i : Instr) (s : State) : Bool :=
  match i with
  | .ldVxK _ => s.firstKey.isNone
  | .cls | .ret | .jp _ | .call _ | .seImm _ _ | .sneImm _ _ | .seReg _ _ | .sneReg _ _ => false
  | .ldImm _ _ | .addImm _ _ | .ldReg _ _ | .orReg _ _ | .andReg _ _ | .xorReg _ _ => false
  | .addReg _ _ | .subReg _ _ | .shr _ _ | .subn _ _ | .shl _ _ | .rnd _ _ => false
  | .ldI _ | .jpV0 _ | .drw _ _ _ | .skp _ | .sknp _ | .ldVxDt _ | .ldDtVx _ | .ldStVx _ => false
  | .addI _ | .ldF _ | .ldB _ | .ldMemVx _ | .ldVxMem _ => false

/-- What a step adds after `Execute`, for an instruction run from `s`: the timer tick, if it completed,
that is if it neither raised (its state has the latch set) nor blocked (R120, R126, R127). -/
def finish (i : Instr) (s : State) : Outcome → Outcome
  | .next t => if t.fault.isSome || blocked i s then .next t else .next t.tick
  | .fault r => .fault r
  | .refused r => .refused r

/-- Fetch, decode, execute, tick; the first error raised is the one reported (R120, R257). -/
def cycle (s : State) : Outcome :=
  match fetchWord s with
  | .error e => raise e s
  | .ok w =>
    match decode w with
    | .error _ => raise .unknownOpcode s
    | .ok i => finish i s (exec i s)

/-- Put a byte at an address as the loader does, glyph region included (R281); nothing beyond the
memory. -/
def Memory.place (m : Memory) (a : Nat) (b : Byte) : Memory :=
  if h : a < 80 then { m with glyphs := m.glyphs.set a b }
  else if a ≤ 0xFFF then m.set a b
  else m

/-- Put a word at `PC`, big-endian (R68). -/
def State.placeWord (s : State) (w : Word) : State :=
  s.setMem ((s.mem.place s.pc.toNat (highByte w)).place (s.pc.toNat + 1) (lowByte w))

end Sys2Proof.Machine
end

