-- ==== Sys2Proof/Machine/Step.lean ====
section
/-! DEFINITION. The step (R120, R121) and the placing of an instruction where the step fetches. -/

namespace Sys2Proof.Machine

/-- One call of `step`: with the fault latch set it returns the latched record and does nothing
(R121, R259); otherwise one cycle. The byte `rnd` of R47 is the state's (assumption 2). -/
def step (s : State) : Host.Outcome State Fault Refusal :=
  match s.fault with
  | some r => .fault (.fatalError r)
  | none => cycle s

/-- `s` with the instruction word `w` of `nbits` bits stored at `PC` and the fault latch clear, so that
the next step fetches and runs it (assumption 28). -/
def State.withFetchWord (s : State) (nbits w : Nat) : State :=
  { s.placeWord (trunc16 (w % 2 ^ nbits)) with fault := none }

end Sys2Proof.Machine
end

