-- ==== Sys2Proof/Machine/Ports.lean ====
section
/-! DEFINITION. The block's transactions with its collaborators (R45 to R52). Each acts between steps. -/

namespace Sys2Proof.Machine

/-- The bytes of an image that are not 0, listed from an address up: the canonical form of the
loaded part of memory (R282). -/
def imageCells : Nat → List Byte → List Host.Cell
  | _, [] => []
  | a, b :: bs => if b = 0 then imageCells (a + 1) bs else (a, b) :: imageCells (a + 1) bs

/-- `initialize` on an image: the reset values, the glyph bytes at 0x000 to 0x04F, and the first 0xE00
bytes of the image at 0x200 (R280, R281, R282). -/
def State.loadImage (glyphs : Vector Byte 80) (image : List Byte) : State :=
  (State.resetWith glyphs).setMem
    { glyphs := glyphs, cells := imageCells 0x200 (image.take 0xE00) }

/-- `initialize(image)` (R46, R280): `LoadError` only when no image is given (R284, D27). -/
def State.load (glyphs : Vector Byte 80) : Option (List Byte) → Except LoadError State
  | none => .error .noImage
  | some image => .ok (State.loadImage glyphs image)

/-- The random byte that the driving loop supplies with its next step (R47). -/
def State.supplyRnd (s : State) (b : Byte) : State := { s with rnd := b }

/-- `step(rnd)` (R47, R120). -/
def stepWith (b : Byte) (s : State) : Outcome := step (s.supplyRnd b)

/-- What a call of `step` that left the state `t` returns: `Ok`, or `FatalError` with the record it
latched (R120). A call on a latched state is `step`'s own `fault` outcome. -/
def State.result (t : State) : Except FatalRecord Unit :=
  match t.fault with
  | none => .ok ()
  | some r => .error r

/-- `set_key(k, pressed)` (R48). -/
def State.setKey (s : State) (k : Key) (pressed : Bool) : State :=
  { s with key := s.key.set k.val pressed }

/-- `framebuffer_view()` (R49). -/
def State.framebufferView (s : State) : Framebuffer × Bool := (s.fb, s.redraw)

/-- `clear_redraw()` (R49). -/
def State.clearRedraw (s : State) : State := { s with redraw := false }

/-- `timer_snapshot()` (R50). -/
def State.timerSnapshot (s : State) : Byte × Byte := (s.dt, s.st)

end Sys2Proof.Machine
end

