-- ==== Sys2Proof/Safety.lean ====
section
/-! DEFINITION. The terms the claims use: the machine's invariant, the parts of a state and what may
change in them, and when a sprite fits. -/

namespace Sys2Proof.Machine

/-! ### Safe steps and the invariant -/

/-- A step that completes or blocks without raising a fatal error. -/
def SafeStep (s t : State) : Prop := s.fault = none ∧ step s = .next t ∧ t.fault = none

/-- What holds of a machine after reset, after a load, and after every step. -/
structure State.Inv (s : State) : Prop where
  /-- memory is in its canonical form -/
  memory : s.mem.wf
  /-- no rule forms a program counter above 0x10FE (R28, R129) -/
  pcRange : s.pc.toNat ≤ 0x10FE
  /-- a return address is at most 0x1000 (R142) -/
  stackRange : ∀ k : Fin 16, (s.stack[k.val]).toNat ≤ 0x1000
  /-- a latched record names the PC the machine stopped at and the word there (R255, R256) -/
  latch : ∀ r, s.fault = some r → r.pc = s.pc ∧ r.word = fetchedWord s

/-! ### Parts of a state -/

/-- One piece of the state, down to a single register, byte, stack entry, key or pixel. -/
inductive Part where
  | reg (r : Reg)
  | index
  | pc
  | stackEntry (k : Fin 16)
  | sp
  | delay
  | sound
  | key (k : Key)
  | pixel (p : Fin 2048)
  | redraw
  | fault
  | byte (a : Nat)
  | rnd
  | draws
deriving DecidableEq, Repr

/-- The two states hold the same value in that part; memory is read byte by byte. -/
def Part.same (s t : State) : Part → Prop
  | .reg r => t.reg r = s.reg r
  | .index => t.i = s.i
  | .pc => t.pc = s.pc
  | .stackEntry k => t.stack[k.val] = s.stack[k.val]
  | .sp => t.sp = s.sp
  | .delay => t.dt = s.dt
  | .sound => t.st = s.st
  | .key k => t.key[k.val] = s.key[k.val]
  | .pixel p => t.fb[p.val] = s.fb[p.val]
  | .redraw => t.redraw = s.redraw
  | .fault => t.fault = s.fault
  | .byte a => t.mem.get a = s.mem.get a
  | .rnd => t.rnd = s.rnd
  | .draws => t.draws = s.draws

/-- Going from `s` to `t` changes nothing outside the given parts. -/
def OnlyChanges (parts : Part → Prop) (s t : State) : Prop := ∀ p, ¬ parts p → p.same s t

/-! ### Outcomes -/

/-- `s` stopped by a fatal error: the latch holds the record of R255, nothing else differs (R256). -/
def State.latched (s : State) (kind : FatalKind) (word : Option Word) : State :=
  { s with fault := some { kind := kind, pc := s.pc, word := word } }


/-- Apply a change of state to an outcome's next state. -/
def mapNext (f : State → State) : Outcome → Outcome
  | .next t => .next (f t)
  | .fault r => .fault r
  | .refused r => .refused r

/-! ### Sprites -/

/-- The pixel of column `px` and row `py` of a framebuffer, cell `px + py*64`; 0 off the grid (R34). -/
def fbPixel (fb : Framebuffer) (px py : Nat) : Bool :=
  if h : px < 64 ∧ py < 32 then fb[px + py * 64]'(by omega) else false

/-- The pixel of column `px` and row `py` (R34). -/
def State.pixel (s : State) (px py : Nat) : Bool := fbPixel s.fb px py

/-- Bit `c` from the left of row `r` of the sprite at `I`: bit 7 is the leftmost (R211, R212). -/
def State.spriteBit (s : State) (r c : Nat) : Bool := (s.mem.get (s.i.toNat + r)).getLsbD (7 - c)

/-- The sprite of `DRW VX, VY, N` covers the pixel: one of its set bits lands there (R211). -/
def State.covers (s : State) (x y : Reg) (n px py : Nat) : Prop :=
  ∃ r c, r < n ∧ c < 8 ∧ s.spriteBit r c = true ∧
    px = (s.reg x).toNat + c ∧ py = (s.reg y).toNat + r

/-- Row `r` of the sprite can be read and its set bits lie on the grid, up to column `c` (R66, R213). -/
def State.rowFits (s : State) (x y : Reg) (r c : Nat) : Prop :=
  s.i.toNat + r ≤ 0xFFF ∧
    ∀ k < c, s.spriteBit r k = true → (s.reg x).toNat + k ≤ 63 ∧ (s.reg y).toNat + r ≤ 31

/-- All `n` rows of the sprite do, in full. -/
def State.spriteFits (s : State) (x y : Reg) (n : Nat) : Prop := ∀ r < n, s.rowFits x y r 8

end Sys2Proof.Machine

namespace Sys2Proof

open Machine

/-! ### What an instruction may write, and the classes of R125 -/

/-- The parts an instruction run from `s` may write, `FAULT` where it may raise (R21, R25, R31, R35,
R36, R37, R72, R191). -/
def Instr.mayWrite (s : State) : Instr → Part → Prop
  | .cls, p => p = .pc ∨ p = .redraw ∨ ∃ q, p = .pixel q
  | .ret, p => p = .pc ∨ p = .sp ∨ p = .fault
  | .jp _, p | .jpV0 _, p => p = .pc
  | .call _, p => p = .pc ∨ p = .sp ∨ p = .fault ∨ ∃ k, p = .stackEntry k ∧ k.val = s.sp.val
  | .seImm _ _, p | .sneImm _ _, p | .seReg _ _, p | .sneReg _ _, p => p = .pc
  | .ldImm x _, p | .addImm x _, p | .ldReg x _, p => p = .pc ∨ p = .reg x
  | .orReg x _, p | .andReg x _, p | .xorReg x _, p => p = .pc ∨ p = .reg x
  | .addReg x _, p | .subReg x _, p | .shr x _, p | .subn x _, p | .shl x _, p =>
    p = .pc ∨ p = .reg x ∨ p = .reg vf
  | .rnd x _, p => p = .pc ∨ p = .reg x ∨ p = .rnd ∨ p = .draws
  | .ldI _, p | .ldF _, p => p = .pc ∨ p = .index
  | .addI _, p => p = .pc ∨ p = .index ∨ p = .reg vf
  | .drw _ _ _, p => p = .pc ∨ p = .reg vf ∨ p = .redraw ∨ p = .fault ∨ ∃ q, p = .pixel q
  | .skp _, p | .sknp _, p => p = .pc ∨ p = .fault
  | .ldVxDt x, p | .ldVxK x, p => p = .pc ∨ p = .reg x
  | .ldDtVx _, p => p = .pc ∨ p = .delay
  | .ldStVx _, p => p = .pc ∨ p = .sound
  | .ldB _, p => p = .pc ∨ p = .fault ∨ ∃ k ≤ 2, p = .byte (s.i.toNat + k)
  | .ldMemVx x, p => p = .pc ∨ p = .fault ∨ ∃ k ≤ x.val, p = .byte (s.i.toNat + k)
  | .ldVxMem x, p => p = .pc ∨ p = .fault ∨ ∃ r ≤ x, p = .reg r

/-- The skips of R125. -/
def Instr.isSkip : Instr → Bool
  | .seImm _ _ | .sneImm _ _ | .seReg _ _ | .sneReg _ _ | .skp _ | .sknp _ => true
  | .cls | .ret | .jp _ | .call _ | .jpV0 _ => false
  | .ldImm _ _ | .addImm _ _ | .ldReg _ _ | .orReg _ _ | .andReg _ _ | .xorReg _ _ => false
  | .addReg _ _ | .subReg _ _ | .shr _ _ | .subn _ _ | .shl _ _ | .rnd _ _ => false
  | .ldI _ | .drw _ _ _ | .ldVxDt _ | .ldVxK _ | .ldDtVx _ | .ldStVx _ => false
  | .addI _ | .ldF _ | .ldB _ | .ldMemVx _ | .ldVxMem _ => false

/-- The jumps, the call and the return of R125, which set PC directly. -/
def Instr.isTransfer : Instr → Bool
  | .ret | .jp _ | .call _ | .jpV0 _ => true
  | .cls | .seImm _ _ | .sneImm _ _ | .seReg _ _ | .sneReg _ _ | .skp _ | .sknp _ => false
  | .ldImm _ _ | .addImm _ _ | .ldReg _ _ | .orReg _ _ | .andReg _ _ | .xorReg _ _ => false
  | .addReg _ _ | .subReg _ _ | .shr _ _ | .subn _ _ | .shl _ _ | .rnd _ _ => false
  | .ldI _ | .drw _ _ _ | .ldVxDt _ | .ldVxK _ | .ldDtVx _ | .ldStVx _ => false
  | .addI _ | .ldF _ | .ldB _ | .ldMemVx _ | .ldVxMem _ => false

end Sys2Proof
end

