-- ==== Sys2Proof/Certificates/Slice0/Obligations.lean ====
section
/-! DEFINITION. The statements for the provers. Each names the rules of spec/ it formalises. `s.latched
kind word` is `s` with the record of that kind, `s.pc` and that word in FAULT (R255). -/

open Sys2Proof Sys2Proof.Machine

/-! ### Encoding -/

/-- R91, R92, R94: every operand of every well-formed instruction survives encoding and decoding.
-/
def Obligations.DecodeOfEncodeIsTheInstruction : Prop :=
  ∀ i : Instr, i.wf = true → decode (encode i) = .ok i

/-- R91, R92, R95 (derived by the spec): a word that decodes has one reading, which is well-formed
and encodes to that word. -/
def Obligations.EncodeOfDecodeIsTheWord : Prop :=
  ∀ (w : Word) (i : Instr), decode w = .ok i → i.wf = true ∧ encode i = w

/-- R94: a word `w` is the instruction when `(w & mask) = match`, for each of the 34 rows. -/
def Obligations.DecodeFollowsTheOpcodeMap : Prop :=
  opcodeMap.length = 34 ∧
  ∀ w : Word,
    (∀ i, decode w = .ok i → i.row ∈ opcodeMap ∧ w &&& i.row.mask = i.row.pattern) ∧
    (∀ r ∈ opcodeMap, w &&& r.mask = r.pattern → ∃ i, decode w = .ok i ∧ i.row = r)

/-- R95 (derived by the spec from R94): no two rows of R94 match the same word, so the order in
which they are tried is immaterial. -/
def Obligations.OpcodeRowsAreDisjoint : Prop :=
  ∀ (w : Word), ∀ r ∈ opcodeMap, ∀ q ∈ opcodeMap,
    w &&& r.mask = r.pattern → w &&& q.mask = q.pattern → r = q

/-- R96 (derived by the spec from R94): the table of the words that are no instruction, family by
family; every other word is one. -/
def Obligations.UnknownWordsAreTheListedOnes : Prop :=
  ∀ w : Word, decode w = .error (.unknownOpcode w) ↔
    (w.toNat / 4096 = 0x0 ∧ w ≠ 0x00E0 ∧ w ≠ 0x00EE) ∨
    (w.toNat / 4096 = 0x5 ∧ w.toNat % 16 ≠ 0) ∨
    (w.toNat / 4096 = 0x8 ∧ w.toNat % 16 ∈ [0x8, 0x9, 0xA, 0xB, 0xC, 0xD, 0xF]) ∨
    (w.toNat / 4096 = 0x9 ∧ w.toNat % 16 ≠ 0) ∨
    (w.toNat / 4096 = 0xE ∧ w.toNat % 256 ∉ [0x9E, 0xA1]) ∨
    (w.toNat / 4096 = 0xF ∧
      w.toNat % 256 ∉ [0x07, 0x0A, 0x15, 0x18, 0x1E, 0x29, 0x33, 0x55, 0x65])

/-- R94: words written out from the opcode map decode to the instructions they stand for. -/
def Obligations.SampleWordsDecode : Prop :=
  decode 0x00E0 = .ok .cls ∧ decode 0x2ABC = .ok (.call 0xABC) ∧
  decode 0x3342 = .ok (.seImm 3 0x42) ∧ decode 0x812E = .ok (.shl 1 2) ∧
  decode 0xD125 = .ok (.drw 1 2 5) ∧ decode 0xFA33 = .ok (.ldB 10) ∧
  decode 0xE5A1 = .ok (.sknp 5) ∧ decode 0x00F1 = .error (.unknownOpcode 0x00F1)

/-! ### The cycle -/

/-- R120: a step of a running machine whose word at PC decodes to `i` is `exec i`, then the timer
tick if the instruction completed, that is if it neither raised nor blocked. -/
def Obligations.StepRunsTheDecodedInstruction : Prop :=
  ∀ (s t : State) (i : Instr), s.fault = none → s.pc.toNat + 1 ≤ 0xFFF →
    decode (wordOfBytes (s.mem.get s.pc.toNat) (s.mem.get (s.pc.toNat + 1))) = .ok i →
    exec i s = .next t →
      (t.fault = none ∧ blocked i s = false → step s = .next t.tick) ∧
      (t.fault ≠ none ∨ blocked i s = true → step s = .next t)

/-- R68, R122: the word at PC is two bytes, big-endian; with `PC + 1 > 0xFFF` the fetch raises
`OutOfBounds(fetch, pc + 1)`, whose address is the spec's decision D24 (assumption 31). That the
record stands in a NEXT state is assumption 4, that nothing else changes D14 (assumption 19). -/
def Obligations.FetchReadsTwoBytesOrRaises : Prop :=
  ∀ s : State,
    (s.pc.toNat + 1 ≤ 0xFFF → ∃ w, fetchWord s = .ok w ∧
      w.toNat = (s.mem.get s.pc.toNat).toNat * 256 + (s.mem.get (s.pc.toNat + 1)).toNat) ∧
    (0xFFF < s.pc.toNat + 1 → s.fault = none →
      step s = .next (s.latched (.outOfBounds .fetch (s.pc.toNat + 1)) none))

/-- R251: a fetched word that matches no row of R94 is fatal, and the record holds the word (R255,
D24, assumptions 5 and 31). That nothing but FAULT changes is the spec's decision D14 (R126, R256,
assumption 19); that the record stands in a NEXT state is the model's choice (assumption 4). -/
def Obligations.UnknownWordIsFatal : Prop :=
  ∀ (s : State) (w : Word), s.fault = none → fetchWord s = .ok w →
    (∀ r ∈ opcodeMap, w &&& r.mask ≠ r.pattern) →
    step s = .next (s.latched .unknownOpcode (some w))

/-- With the fault latch set, a step returns the latched record and nothing else: the spec's
decision D3 (R121). That this call is the outcome `fault` is the model's choice (assumption 4). -/
def Obligations.LatchedMachineReturnsItsRecord : Prop :=
  ∀ (s : State) (r : FatalRecord), s.fault = some r → step s = .fault (.fatalError r)

/-- A step that raises leaves the state before it, except FAULT, whose record names the faulting
instruction's address and word: the spec's decisions D14 and D24 (R126, R255, R256; assumptions 4,
5 and 19). -/
def Obligations.FatalErrorsArePrecise : Prop :=
  ∀ (s t : State) (r : FatalRecord), step s = .next t → t.fault = some r →
    t = { s with fault := some r } ∧ s.fault = none ∧ r.pc = s.pc ∧
      (∀ w, fetchWord s = .ok w → r.word = some w) ∧
      (0xFFF < s.pc.toNat + 1 → r.word = none)

/-- From the invariant a step leads to the invariant: memory stays in its canonical form
(assumption 33), PC stays in the range of R28 and R129 (D16), return addresses in that of R142,
and a latched record names the PC and the word (R255). -/
def Obligations.StepKeepsTheInvariant : Prop :=
  ∀ s t : State, s.Inv → step s = .next t → t.Inv

/-- The invariant holds after reset and after every load, whatever the glyph bytes and the image.
-/
def Obligations.ResetAndLoadMeetTheInvariant : Prop :=
  State.reset.Inv ∧ ∀ glyphs image, (State.loadImage glyphs image).Inv

/-- R64, R281: no step changes a byte of the glyph region: the spec's decision D10 (assumption
11). -/
def Obligations.GlyphRegionNeverChanges : Prop :=
  ∀ s t : State, step s = .next t → t.mem.glyphs = s.mem.glyphs ∧
    ∀ a ≤ 0x04F, t.mem.get a = s.mem.get a

/-- R127: after an instruction that completed each timer goes down by one and stops at 0; nothing
else changes. After one that raised or blocked neither moves. Where the tick stands is the spec's
decision D15 (assumption 20). -/
def Obligations.TimersTickAfterCompletedInstructions : Prop :=
  ∀ (s t : State) (w : Word) (i : Instr), s.fault = none → fetchWord s = .ok w →
    decode w = .ok i → exec i s = .next t → ∃ u, step s = .next u ∧
      (t.fault = none → blocked i s = false → u.dt.toNat = t.dt.toNat - 1 ∧
        u.st.toNat = t.st.toNat - 1 ∧ OnlyChanges (fun p => p = .delay ∨ p = .sound) t u) ∧
      (t.fault ≠ none ∨ blocked i s = true → u.dt = s.dt ∧ u.st = s.st)

/-- R128 (derived by the spec from R127, D15, assumption 20): `FX15` and `FX18` are seen one tick
lower at the end of their own step; `FX07` reads `DT` before that step's tick. -/
def Obligations.TimerWritesAreSeenOneTickLower : Prop :=
  ∀ (s : State) (w : Word) (x : Reg), s.fault = none → fetchWord s = .ok w →
    (decode w = .ok (.ldDtVx x) →
      ∃ t, step s = .next t ∧ t.dt.toNat = (s.reg x).toNat - 1) ∧
    (decode w = .ok (.ldStVx x) →
      ∃ t, step s = .next t ∧ t.st.toNat = (s.reg x).toNat - 1) ∧
    (decode w = .ok (.ldVxDt x) →
      ∃ t, step s = .next t ∧ t.reg x = s.dt ∧ t.dt.toNat = s.dt.toNat - 1)

/-- R125, R129: in a step that completes, a sequential instruction moves PC by exactly 2 and a
skip by 2 or 4, with no wrap (the spec's decision D16, assumption 18); `FX0A` moves it by 2 unless
it blocks. -/
def Obligations.ProgramCounterMovesExactly : Prop :=
  ∀ (s t : State) (w : Word) (i : Instr), fetchWord s = .ok w → decode w = .ok i →
    step s = .next t → t.fault = none →
      (i.isSkip = false → i.isTransfer = false → blocked i s = false →
        t.pc.toNat = s.pc.toNat + 2) ∧
      (i.isSkip = true → t.pc.toNat = s.pc.toNat + 2 ∨ t.pc.toNat = s.pc.toNat + 4) ∧
      (i.isTransfer = true → t.pc.toNat ≤ 0x10FE ∨ i = .ret) ∧
      (blocked i s = true → t.pc = s.pc)

/-! ### Whole-machine rules -/

/-- R21, R25, R31, R35, R36, R37, R72: what each instruction may write, and that it writes nothing
else. The lists of R21 and R25 are the spec's own (D21); `rnd` and `draws` are the model's
(assumption 2). -/
def Obligations.EveryInstructionWritesOnlyItsParts : Prop :=
  ∀ (i : Instr) (s t : State), exec i s = .next t → OnlyChanges (i.mayWrite s) s t

/-- R35: only `00E0` and `DXYN` write the framebuffer; R36: no instruction writes a key; R37
(D19): no instruction clears REDRAW. -/
def Obligations.FramebufferAndKeysHaveTheirWriters : Prop :=
  ∀ (i : Instr) (s t : State), exec i s = .next t →
    t.key = s.key ∧ (s.redraw = true → t.redraw = true) ∧
    (i ≠ .cls → (∀ x y n, i ≠ .drw x y n) → t.fb = s.fb ∧ t.redraw = s.redraw)

/-- R31 (D7): `2NNN` and `00EE` apart, no instruction reads or writes STACK or SP: run with
another stack it does the same and leaves that stack. -/
def Obligations.OnlyCallAndReturnUseTheStack : Prop :=
  ∀ (i : Instr) (s : State) (stack : Vector Word 16) (sp : Fin 17),
    (∀ nnn, i ≠ .call nnn) → i ≠ .ret →
    exec i { s with stack := stack, sp := sp } =
      mapNext (fun t => { t with stack := stack, sp := sp }) (exec i s)

/-- R38 (derived by the spec): REDRAW is output-only: a step with another REDRAW does the same but
for REDRAW itself. -/
def Obligations.RedrawIsOutputOnly : Prop :=
  ∀ (s : State) (b : Bool),
    mapNext State.clearRedraw (step { s with redraw := b }) =
      mapNext State.clearRedraw (step s)

/-- R33: no instruction reads ST: with another ST an instruction other than `FX18` does the same
and leaves that ST. -/
def Obligations.SoundTimerIsNeverRead : Prop :=
  ∀ (i : Instr) (s : State) (b : Byte), (∀ x, i ≠ .ldStVx x) →
    exec i (s.setSound b) = mapNext (fun t => t.setSound b) (exec i s)

/-- R47, R130: `rnd` is read only by `CXNN`: with another byte (and another count of draws, the
model's own, assumption 2) any other instruction does the same and leaves both. -/
def Obligations.OnlyRndReadsTheRandomByte : Prop :=
  ∀ (i : Instr) (s : State) (b : Byte) (d : Nat), (∀ x nn, i ≠ .rnd x nn) →
    exec i { s with rnd := b, draws := d } =
      mapNext (fun t => { t with rnd := b, draws := d }) (exec i s)

/-! ### Loads, arithmetic, logic, shifts, random -/

/-- R160, R161: `6XNN` and `7XNN`. VF is written only as `V[X]`. -/
def Obligations.ImmediateLoadAndAdd : Prop :=
  ∀ (s : State) (x : Reg) (nn : Byte),
    (∃ t, exec (.ldImm x nn) s = .next t ∧ t.reg x = nn ∧ t.pc = s.pc + 2 ∧
      OnlyChanges (fun p => p = .reg x ∨ p = .pc) s t) ∧
    (∃ t, exec (.addImm x nn) s = .next t ∧
      (t.reg x).toNat = ((s.reg x).toNat + nn.toNat) % 256 ∧ t.pc = s.pc + 2 ∧
      OnlyChanges (fun p => p = .reg x ∨ p = .pc) s t)

/-- R162 to R165: copy, OR, AND, XOR, bit by bit. VF is written only as `V[X]`. -/
def Obligations.RegisterCopyAndLogic : Prop :=
  ∀ (s : State) (x y : Reg),
    (∃ t, exec (.ldReg x y) s = .next t ∧ t.reg x = s.reg y ∧ t.pc = s.pc + 2 ∧
      OnlyChanges (fun p => p = .reg x ∨ p = .pc) s t) ∧
    (∃ t, exec (.orReg x y) s = .next t ∧
      (∀ k < 8, (t.reg x).getLsbD k = ((s.reg x).getLsbD k || (s.reg y).getLsbD k)) ∧
      t.pc = s.pc + 2 ∧ OnlyChanges (fun p => p = .reg x ∨ p = .pc) s t) ∧
    (∃ t, exec (.andReg x y) s = .next t ∧
      (∀ k < 8, (t.reg x).getLsbD k = ((s.reg x).getLsbD k && (s.reg y).getLsbD k)) ∧
      t.pc = s.pc + 2 ∧ OnlyChanges (fun p => p = .reg x ∨ p = .pc) s t) ∧
    (∃ t, exec (.xorReg x y) s = .next t ∧
      (∀ k < 8, (t.reg x).getLsbD k = ((s.reg x).getLsbD k ^^ (s.reg y).getLsbD k)) ∧
      t.pc = s.pc + 2 ∧ OnlyChanges (fun p => p = .reg x ∨ p = .pc) s t)

/-- R166: `8XY4`. With `X = 0xF` VF ends holding the carry. -/
def Obligations.AddWithCarry : Prop :=
  ∀ (s : State) (x y : Reg), ∃ t, exec (.addReg x y) s = .next t ∧
    (x ≠ vf → (t.reg x).toNat = ((s.reg x).toNat + (s.reg y).toNat) % 256) ∧
    (255 < (s.reg x).toNat + (s.reg y).toNat → t.reg vf = 1) ∧
    ((s.reg x).toNat + (s.reg y).toNat ≤ 255 → t.reg vf = 0) ∧
    t.pc = s.pc + 2 ∧ OnlyChanges (fun p => p = .reg x ∨ p = .reg vf ∨ p = .pc) s t

/-- R167: `8XY5`. VF is 0 exactly when a borrow occurs; with `X = 0xF` it ends holding that flag.
-/
def Obligations.SubtractWithNotBorrow : Prop :=
  ∀ (s : State) (x y : Reg), ∃ t, exec (.subReg x y) s = .next t ∧
    (x ≠ vf → t.reg x = s.reg x - s.reg y) ∧
    (s.reg y ≤ s.reg x → t.reg vf = 1) ∧ (s.reg x < s.reg y → t.reg vf = 0) ∧
    t.pc = s.pc + 2 ∧ OnlyChanges (fun p => p = .reg x ∨ p = .reg vf ∨ p = .pc) s t

/-- `8XY7`, the reverse subtraction, with the borrow read as R169 derives it from R167 (assumption
25). -/
def Obligations.ReverseSubtractWithNotBorrow : Prop :=
  ∀ (s : State) (x y : Reg), ∃ t, exec (.subn x y) s = .next t ∧
    (x ≠ vf → t.reg x = s.reg y - s.reg x) ∧
    (s.reg x ≤ s.reg y → t.reg vf = 1) ∧ (s.reg y < s.reg x → t.reg vf = 0) ∧
    t.pc = s.pc + 2 ∧ OnlyChanges (fun p => p = .reg x ∨ p = .reg vf ∨ p = .pc) s t

/-- R168, R170: `8XY6` and `8XYE`, bit by bit, for every value of the `Y` field. That `Y` is not
read is R98, which the spec lists among its own choices (U28, `decided`; assumption 24). -/
def Obligations.ShiftByOne : Prop :=
  ∀ (s : State) (x y : Reg),
    (∃ t, exec (.shr x y) s = .next t ∧
      (x ≠ vf → ∀ k < 8, (t.reg x).getLsbD k = (s.reg x).getLsbD (k + 1)) ∧
      t.reg vf = (if (s.reg x).getLsbD 0 then 1 else 0) ∧
      t.pc = s.pc + 2 ∧ OnlyChanges (fun p => p = .reg x ∨ p = .reg vf ∨ p = .pc) s t) ∧
    (∃ t, exec (.shl x y) s = .next t ∧
      (x ≠ vf → (t.reg x).getLsbD 0 = false ∧
        ∀ k < 7, (t.reg x).getLsbD (k + 1) = (s.reg x).getLsbD k) ∧
      t.reg vf = (if (s.reg x).getLsbD 7 then 1 else 0) ∧
      t.pc = s.pc + 2 ∧ OnlyChanges (fun p => p = .reg x ∨ p = .reg vf ∨ p = .pc) s t)

/-- R171: `CXNN` under every byte `b` supplied with its step, a free input by the spec's decision
D5. The parts `rnd` and `draws` are the model's own (assumption 2). -/
def Obligations.RandomByteUnderMask : Prop :=
  ∀ (s : State) (b : Byte) (x : Reg) (nn : Byte),
    ∃ t, exec (.rnd x nn) (s.supplyRnd b) = .next t ∧
      (∀ k < 8, (t.reg x).getLsbD k = (b.getLsbD k && nn.getLsbD k)) ∧ t.pc = s.pc + 2 ∧
      OnlyChanges (fun p => p = .reg x ∨ p = .pc ∨ p = .rnd ∨ p = .draws) s t

/-! ### Control flow -/

/-- R143 to R146: each of the four register skips moves PC by 4 if its condition holds and by 2 if
not, and changes nothing else. -/
def Obligations.SkipsTestTheirCondition : Prop :=
  ∀ (s : State) (x y : Reg) (nn : Byte),
    (∃ t, exec (.seImm x nn) s = .next t ∧ OnlyChanges (· = .pc) s t ∧
      (s.reg x = nn → t.pc = s.pc + 4) ∧ (s.reg x ≠ nn → t.pc = s.pc + 2)) ∧
    (∃ t, exec (.sneImm x nn) s = .next t ∧ OnlyChanges (· = .pc) s t ∧
      (s.reg x ≠ nn → t.pc = s.pc + 4) ∧ (s.reg x = nn → t.pc = s.pc + 2)) ∧
    (∃ t, exec (.seReg x y) s = .next t ∧ OnlyChanges (· = .pc) s t ∧
      (s.reg x = s.reg y → t.pc = s.pc + 4) ∧ (s.reg x ≠ s.reg y → t.pc = s.pc + 2)) ∧
    (∃ t, exec (.sneReg x y) s = .next t ∧ OnlyChanges (· = .pc) s t ∧
      (s.reg x ≠ s.reg y → t.pc = s.pc + 4) ∧ (s.reg x = s.reg y → t.pc = s.pc + 2))

/-- R141: `1NNN` sets PC to `NNN` and changes nothing else. -/
def Obligations.JumpSetsTheProgramCounter : Prop :=
  ∀ (s : State) (nnn : Word), ∃ t, exec (.jp nnn) s = .next t ∧ t.pc = nnn ∧
    OnlyChanges (· = .pc) s t

/-- `BNNN`: the target is the exact sum `NNN + V[0]`, not masked to 12 bits: the spec's decision
D16 (R147, assumption 18). -/
def Obligations.JumpPlusV0IsTheExactSum : Prop :=
  ∀ (s : State) (nnn : Word), nnn.toNat ≤ 0xFFF →
    ∃ t, exec (.jpV0 nnn) s = .next t ∧ t.pc.toNat = nnn.toNat + (s.reg 0).toNat ∧
      OnlyChanges (· = .pc) s t

/-- R30, R142, R252: `2NNN` pushes `pc0 + 2` and jumps; with 16 live entries it raises
`StackOverflow`. That the entry is `pc0 + 2` is the spec's decision D7 (assumption 13); that
nothing but FAULT changes then is D14 (assumption 19), and that the record stands in a NEXT state
the model's choice (assumption 4). -/
def Obligations.CallPushesTheReturnAddress : Prop :=
  ∀ (s : State) (nnn : Word),
    (∀ h : s.sp.val < 16, ∃ t, exec (.call nnn) s = .next t ∧
      t.stack[s.sp.val] = s.pc + 2 ∧ t.sp.val = s.sp.val + 1 ∧ t.pc = nnn ∧
      OnlyChanges (fun p => p = .stackEntry ⟨s.sp.val, h⟩ ∨ p = .sp ∨ p = .pc) s t) ∧
    (s.sp.val = 16 → exec (.call nnn) s = .next (s.latched .stackOverflow (fetchedWord s)))

/-- R30, R140, R253: `00EE` sets PC to the newest entry; on an empty stack it raises
`StackUnderflow`. That nothing but FAULT changes then is the spec's decision D14 (assumption 19),
and that the record stands in a NEXT state the model's choice (assumption 4). -/
def Obligations.ReturnPopsTheStack : Prop :=
  ∀ s : State,
    (∀ h : 0 < s.sp.val, ∃ t, exec .ret s = .next t ∧
      t.pc = s.stack[s.sp.val - 1]'(by omega) ∧ t.sp.val = s.sp.val - 1 ∧
      OnlyChanges (fun p => p = .sp ∨ p = .pc) s t) ∧
    (s.sp.val = 0 → exec .ret s = .next (s.latched .stackUnderflow (fetchedWord s)))

/-- 41_flow.md, R140: `2NNN` then `00EE`: PC after the return is the call site plus 2, and the
live stack is as before. -/
def Obligations.CallThenReturnResumes : Prop :=
  ∀ (s : State) (nnn : Word), s.sp.val < 16 →
    ∃ t u, exec (.call nnn) s = .next t ∧ exec .ret t = .next u ∧ u.pc = s.pc + 2 ∧
      u.sp = s.sp ∧ (∀ k (h : k < s.sp.val), u.stack[k]'(by omega) = s.stack[k]'(by omega)) ∧
      OnlyChanges (fun p => p = .pc ∨ ∃ k, p = .stackEntry k ∧ k.val = s.sp.val) s u

/-! ### Index register and memory -/

/-- R190: `ANNN`. -/
def Obligations.LoadIndex : Prop :=
  ∀ (s : State) (nnn : Word), ∃ t, exec (.ldI nnn) s = .next t ∧ t.i = nnn ∧ t.pc = s.pc + 2 ∧
    OnlyChanges (fun p => p = .index ∨ p = .pc) s t

/-- `FX29`: the product is not masked, for any `V[X]`: the spec's decision D8 (R192, assumption
14). -/
def Obligations.PointIndexAtGlyph : Prop :=
  ∀ (s : State) (x : Reg), ∃ t, exec (.ldF x) s = .next t ∧ t.i.toNat = (s.reg x).toNat * 5 ∧
    t.pc = s.pc + 2 ∧ OnlyChanges (fun p => p = .index ∨ p = .pc) s t

/-- R191: `FX1E` adds modulo 65536 and sets VF to 1 exactly when the sum exceeds 0xFFFF, with no
cut to 12 bits: the spec's decision D6 (assumption 12). -/
def Obligations.IndexAddWithOverflowFlag : Prop :=
  ∀ (s : State) (x : Reg), ∃ t, exec (.addI x) s = .next t ∧
    t.i.toNat = (s.i.toNat + (s.reg x).toNat) % 65536 ∧
    (0xFFFF < s.i.toNat + (s.reg x).toNat → t.reg vf = 1) ∧
    (s.i.toNat + (s.reg x).toNat ≤ 0xFFFF → t.reg vf = 0) ∧ t.pc = s.pc + 2 ∧
    OnlyChanges (fun p => p = .index ∨ p = .reg vf ∨ p = .pc) s t

/-- R193, R257: `FX33` stores the three digits at `I`, `I+1`, `I+2`; if one of them is not
writable it raises at the first such address and stores nothing. The digits' order is the spec's
decision D20 (assumption 15); the checks are D9 and D10 (assumption 11), their order and that
nothing but FAULT changes D25 and D14 (assumption 19); the NEXT state is assumption 4. -/
def Obligations.BcdStore : Prop :=
  ∀ (s : State) (x : Reg),
    (0x050 ≤ s.i.toNat → s.i.toNat + 2 ≤ 0xFFF → ∃ t, exec (.ldB x) s = .next t ∧
      (t.mem.get s.i.toNat).toNat = (s.reg x).toNat / 100 ∧
      (t.mem.get (s.i.toNat + 1)).toNat = (s.reg x).toNat / 10 % 10 ∧
      (t.mem.get (s.i.toNat + 2)).toNat = (s.reg x).toNat % 10 ∧ t.pc = s.pc + 2 ∧
      OnlyChanges (fun p => p = .pc ∨ ∃ k ≤ 2, p = .byte (s.i.toNat + k)) s t) ∧
    (s.i.toNat ≤ 0x04F →
      exec (.ldB x) s = .next (s.latched (.outOfBounds .glyphWrite s.i.toNat)
        (fetchedWord s))) ∧
    (0xFFF < s.i.toNat + 2 →
      exec (.ldB x) s = .next (s.latched (.outOfBounds .write (max s.i.toNat 0x1000))
        (fetchedWord s)))

/-- R194, R257: `FX55` stores `V[0]` to `V[X]` from `I` up, `I` unchanged; if an address is not
writable it raises at the first such address and stores nothing. That `I` stays is the spec's
decision D21 (assumption 16); the checks are D9 and D10 (assumption 11), their order and that
nothing but FAULT changes D25 and D14 (assumption 19); the NEXT state is assumption 4. -/
def Obligations.RegisterBlockStore : Prop :=
  ∀ (s : State) (x : Reg),
    (0x050 ≤ s.i.toNat → s.i.toNat + x.val ≤ 0xFFF → ∃ t, exec (.ldMemVx x) s = .next t ∧
      (∀ r : Reg, r ≤ x → t.mem.get (s.i.toNat + r.val) = s.reg r) ∧ t.pc = s.pc + 2 ∧
      OnlyChanges (fun p => p = .pc ∨ ∃ k ≤ x.val, p = .byte (s.i.toNat + k)) s t) ∧
    (s.i.toNat ≤ 0x04F →
      exec (.ldMemVx x) s = .next (s.latched (.outOfBounds .glyphWrite s.i.toNat)
        (fetchedWord s))) ∧
    (0xFFF < s.i.toNat + x.val →
      exec (.ldMemVx x) s = .next (s.latched (.outOfBounds .write (max s.i.toNat 0x1000))
        (fetchedWord s)))

/-- R195, R257: `FX65` loads `V[0]` to `V[X]` from `I` up, `I` unchanged, from anywhere in memory;
with an address above 0xFFF it raises at the first such address and no register is written. That
`I` stays is the spec's decision D21 (assumption 16); the check is D9 (assumption 11), its order
and that nothing but FAULT changes D25 and D14 (assumption 19); the NEXT state is assumption 4. -/
def Obligations.RegisterBlockLoad : Prop :=
  ∀ (s : State) (x : Reg),
    (s.i.toNat + x.val ≤ 0xFFF → ∃ t, exec (.ldVxMem x) s = .next t ∧
      (∀ r : Reg, r ≤ x → t.reg r = s.mem.get (s.i.toNat + r.val)) ∧ t.pc = s.pc + 2 ∧
      OnlyChanges (fun p => p = .pc ∨ ∃ r ≤ x, p = .reg r) s t) ∧
    (0xFFF < s.i.toNat + x.val →
      exec (.ldVxMem x) s = .next (s.latched (.outOfBounds .read (max s.i.toNat 0x1000))
        (fetchedWord s)))

/-- R66, R67, R74: the checked accesses: where they raise, which is the spec's decisions D9 and
D10 (assumption 11), and that a read returns the latest write. That a write keeps the canonical
form is about the model's own shape of memory (assumption 33). -/
def Obligations.MemoryReadsTheLatestWrite : Prop :=
  ∀ (m : Memory) (a : Nat) (v : Byte),
    (0xFFF < a → memRead m a = .error (.outOfBounds .read a) ∧
      memWrite m a v = .error (.outOfBounds .write a)) ∧
    (a ≤ 0x04F → memRead m a = .ok (m.get a) ∧
      memWrite m a v = .error (.outOfBounds .glyphWrite a)) ∧
    (0x050 ≤ a → a ≤ 0xFFF → ∃ m', memWrite m a v = .ok m' ∧ memRead m' a = .ok v ∧
      (∀ b, b ≠ a → memRead m' b = memRead m b) ∧ (m.wf → m'.wf))

/-- The canonical form (the model's own, assumption 33): memories that read alike are equal data.
-/
def Obligations.MemoriesThatReadAlikeAreEqual : Prop :=
  ∀ m n : Memory, m.wf → n.wf → (∀ a ≤ 0xFFF, m.get a = n.get a) → m = n

/-! ### Display -/

/-- R210: `00E0` clears every pixel and sets REDRAW. -/
def Obligations.ClearScreen : Prop :=
  ∀ s : State, ∃ t, exec .cls s = .next t ∧
    (∀ p (h : p < 2048), t.fb[p] = false) ∧ t.redraw = true ∧ t.pc = s.pc + 2 ∧
    OnlyChanges (fun p => p = .pc ∨ p = .redraw ∨ ∃ q, p = .pixel q) s t

/-- R211, R214, R215: `DXYN` with a sprite that can be read and lies on the grid flips the covered
pixels, keeps the others, sets VF to 1 exactly when a covered pixel held 1, and sets REDRAW. Which
bit is leftmost is the spec's decision D17 (assumption 9), REDRAW on every draw D19 (assumption
21). -/
def Obligations.DrawFlipsTheCoveredPixels : Prop :=
  ∀ (s : State) (x y : Reg) (n : Nat), s.spriteFits x y n →
    ∃ t, exec (.drw x y n) s = .next t ∧
      (∀ px py, s.covers x y n px py → t.pixel px py = !s.pixel px py) ∧
      (∀ px py, ¬ s.covers x y n px py → t.pixel px py = s.pixel px py) ∧
      ((∃ px py, s.covers x y n px py ∧ s.pixel px py = true) → t.reg vf = 1) ∧
      ((∀ px py, s.covers x y n px py → s.pixel px py = false) → t.reg vf = 0) ∧
      t.redraw = true ∧ t.pc = s.pc + 2 ∧
      OnlyChanges (fun p => p = .pc ∨ p = .reg vf ∨ p = .redraw ∨ ∃ q, p = .pixel q) s t

/-- R66, R213, R257: `DXYN` raises at the first failure in the order of its rows and, within a
row, after the row's read, of its set bits from left to right; nothing is drawn. That an
unreadable row raises is the spec's decision D9 (assumption 11), that a pixel off the grid raises
D18 (assumption 10), which bit is leftmost D17 (assumption 9), the order and that nothing but
FAULT changes D25 and D14 (assumption 19); the NEXT state is assumption 4. -/
def Obligations.DrawReportsTheFirstFailure : Prop :=
  ∀ (s : State) (x y : Reg) (n r : Nat), r < n → (∀ j < r, s.rowFits x y j 8) →
    (0xFFF < s.i.toNat + r →
      exec (.drw x y n) s = .next (s.latched (.outOfBounds .read (s.i.toNat + r)) (fetchedWord s))) ∧
    (∀ c < 8, s.rowFits x y r c → s.spriteBit r c = true →
      (63 < (s.reg x).toNat + c ∨ 31 < (s.reg y).toNat + r) →
      exec (.drw x y n) s = .next (s.latched
        (.outOfBounds .pixel ((s.reg x).toNat + c + ((s.reg y).toNat + r) * 64))
        (fetchedWord s)))

/-- R211, R214, R216: drawing the same sprite twice restores the framebuffer. The second draw sets
VF to 1 exactly when a covered pixel held 0 before the first; if the first draw met no 1, that is
when the sprite has a set bit. R216 says the latter of every screen; R211 and R214, from which it
is derived, do not give that (assumption 34). VF is no coordinate. -/
def Obligations.DrawingTwiceRestores : Prop :=
  ∀ (s : State) (x y : Reg) (n : Nat), s.spriteFits x y n → x ≠ vf → y ≠ vf →
    ∃ t u, exec (.drw x y n) s = .next t ∧ exec (.drw x y n) t = .next u ∧ u.fb = s.fb ∧
      (u.reg vf = 0 ∨ u.reg vf = 1) ∧
      (u.reg vf = 1 ↔ ∃ px py, s.covers x y n px py ∧ s.pixel px py = false) ∧
      (t.reg vf = 0 → (u.reg vf = 1 ↔ ∃ r c, r < n ∧ c < 8 ∧ s.spriteBit r c = true))

/-! ### Keys and timers -/

/-- R230, R231, R236: the key skips. That a `V[X]` above 15 raises `OutOfBounds(key)`, with no
mask, is the spec's decision D22 (assumption 17), that nothing but FAULT changes then D14
(assumption 19), and that the record stands in a NEXT state the model's choice (assumption 4). -/
def Obligations.KeySkipsReadTheKey : Prop :=
  ∀ (s : State) (x : Reg),
    (∀ k : Key, (s.reg x).toNat = k.val →
      (∃ t, exec (.skp x) s = .next t ∧ OnlyChanges (· = .pc) s t ∧
        (s.key[k.val] = true → t.pc = s.pc + 4) ∧
        (s.key[k.val] = false → t.pc = s.pc + 2)) ∧
      (∃ t, exec (.sknp x) s = .next t ∧ OnlyChanges (· = .pc) s t ∧
        (s.key[k.val] = false → t.pc = s.pc + 4) ∧
        (s.key[k.val] = true → t.pc = s.pc + 2))) ∧
    (15 < (s.reg x).toNat → ∀ i : Instr, i = .skp x ∨ i = .sknp x →
      exec i s = .next (s.latched (.outOfBounds .key (s.reg x).toNat) (fetchedWord s)))

/-- R235: `FX0A` stores the least pressed key and completes; with no key pressed it is blocked and
writes nothing. That the key's level counts is the spec's decision D23 (assumption 17). -/
def Obligations.KeyWaitTakesTheLeastKey : Prop :=
  ∀ (s : State) (x : Reg),
    (∀ k : Key, s.key[k.val] = true → (∀ j < k, s.key[j.val] = false) →
      blocked (.ldVxK x) s = false ∧ ∃ t, exec (.ldVxK x) s = .next t ∧
        (t.reg x).toNat = k.val ∧ t.pc = s.pc + 2 ∧
        OnlyChanges (fun p => p = .reg x ∨ p = .pc) s t) ∧
    ((∀ k : Key, s.key[k.val] = false) →
      blocked (.ldVxK x) s = true ∧ exec (.ldVxK x) s = .next s)

/-- R235, R268: a step that waits for a key changes nothing at all, the timers included, and once
a key is set the next step stores it and moves on (D23, assumption 17). -/
def Obligations.KeyWaitHoldsUntilAKeyIsSet : Prop :=
  ∀ (s : State) (w : Word) (x : Reg) (k : Key), s.fault = none → fetchWord s = .ok w →
    decode w = .ok (.ldVxK x) → (∀ j : Key, s.key[j.val] = false) →
    step s = .next s ∧
    ∃ t, step (s.setKey k true) = .next t ∧ (t.reg x).toNat = k.val ∧
      t.pc.toNat = s.pc.toNat + 2

/-- R232, R233, R234: the timer instructions, before the tick of their step. -/
def Obligations.TimerReadsAndWrites : Prop :=
  ∀ (s : State) (x : Reg),
    (∃ t, exec (.ldVxDt x) s = .next t ∧ t.reg x = s.dt ∧ t.pc = s.pc + 2 ∧
      OnlyChanges (fun p => p = .reg x ∨ p = .pc) s t) ∧
    (∃ t, exec (.ldDtVx x) s = .next t ∧ t.dt = s.reg x ∧ t.pc = s.pc + 2 ∧
      OnlyChanges (fun p => p = .delay ∨ p = .pc) s t) ∧
    (∃ t, exec (.ldStVx x) s = .next t ∧ t.st = s.reg x ∧ t.pc = s.pc + 2 ∧
      OnlyChanges (fun p => p = .sound ∨ p = .pc) s t)

/-! ### Reset and ports -/

/-- R44, R280, R281, R282, R284: `initialize` with no image is `LoadError`; with one it gives the
reset values, the glyph bytes from 0x000, the first 0xE00 bytes of the image from 0x200, and 0 in
every other byte; that an image is needed is its decision D27 (assumption 22). The zeros of I, FB,
REDRAW and unloaded memory are the spec's decision D26 (assumptions 7 and 8). -/
def Obligations.LoadBuildsTheResetState : Prop :=
  ∀ (glyphs : Vector Byte 80) (image : List Byte),
    State.load glyphs none = .error .noImage ∧
    ∃ s, State.load glyphs (some image) = .ok s ∧
      (∀ r, s.reg r = 0) ∧ s.i = 0 ∧ s.pc = 0x200 ∧ s.sp = 0 ∧ s.dt = 0 ∧ s.st = 0 ∧
      (∀ k : Fin 16, s.stack[k.val] = 0) ∧ (∀ k : Key, s.key[k.val] = false) ∧
      (∀ p : Fin 2048, s.fb[p.val] = false) ∧ s.redraw = false ∧ s.fault = none ∧
      (∀ a (h : a < 80), s.mem.get a = glyphs[a]) ∧
      (∀ k (h : k < image.length), k < 0xE00 → s.mem.get (0x200 + k) = image[k]) ∧
      (∀ a, 80 ≤ a → a < 0x200 → s.mem.get a = 0) ∧
      (∀ a, 0x200 + min image.length 0xE00 ≤ a → s.mem.get a = 0)

/-- R48, R49: `set_key` changes its key alone, `clear_redraw` REDRAW alone. The ports' shape is
the spec's decisions D1 and D2 (assumption 23). -/
def Obligations.PortsChangeTheirPartAlone : Prop :=
  ∀ (s : State) (k : Key) (b : Bool),
    (s.setKey k b).key[k.val] = b ∧ OnlyChanges (· = .key k) s (s.setKey k b) ∧
    s.clearRedraw.redraw = false ∧ OnlyChanges (· = .redraw) s s.clearRedraw
end

