-- ==== Sys2Proof/Laws/Decode.lean ====
section
/-! SUPPORT. The fields of a word built from its fields, and of a word of two bytes. The proofs about
decoding and encoding rewrite with these. -/

namespace Sys2Proof

theorem bitField_trunc16 (n hi lo : Nat) :
    bitField (trunc16 n) hi lo = n % 65536 / 2 ^ lo % 2 ^ (hi - lo + 1) := by
  simp [bitField]

/-! ### `NNN` words -/

theorem fieldFamily_wordNNN {f : Nat} {nnn : Word} (hf : f < 16) (h : nnn.toNat ≤ 0xFFF) :
    fieldFamily (wordNNN f nnn) = f := by
  unfold fieldFamily wordNNN
  rw [bitField_trunc16]
  omega

theorem fieldNNN_wordNNN {f : Nat} {nnn : Word} (h : nnn.toNat ≤ 0xFFF) :
    fieldNNN (wordNNN f nnn) = nnn := by
  unfold fieldNNN wordNNN
  rw [bitField_trunc16]
  apply BitVec.eq_of_toNat_eq
  rw [BitVec.toNat_ofNat]
  omega

/-! ### `X NN` words -/

theorem fieldFamily_wordXNN {f : Nat} (x : Reg) (nn : Byte) (hf : f < 16) :
    fieldFamily (wordXNN f x nn) = f := by
  unfold fieldFamily wordXNN
  rw [bitField_trunc16]
  omega

theorem fieldX_wordXNN {f : Nat} (x : Reg) (nn : Byte) : fieldX (wordXNN f x nn) = x := by
  unfold fieldX wordXNN
  rw [bitField_trunc16]
  apply Fin.ext
  rw [Fin.val_ofNat]
  omega

theorem lowField_wordXNN {f : Nat} (x : Reg) (nn : Byte) :
    bitField (wordXNN f x nn) 7 0 = nn.toNat := by
  unfold wordXNN
  rw [bitField_trunc16]
  omega

theorem fieldNN_wordXNN {f : Nat} (x : Reg) (nn : Byte) : fieldNN (wordXNN f x nn) = nn := by
  unfold fieldNN
  rw [lowField_wordXNN x nn]
  apply BitVec.eq_of_toNat_eq
  rw [BitVec.toNat_ofNat]
  omega

/-! ### `X Y N` words -/

theorem fieldFamily_wordXYN {f n : Nat} (x y : Reg) (hf : f < 16) (hn : n ≤ 15) :
    fieldFamily (wordXYN f x y n) = f := by
  unfold fieldFamily wordXYN
  rw [bitField_trunc16]
  omega

theorem fieldX_wordXYN {f n : Nat} (x y : Reg) (hn : n ≤ 15) : fieldX (wordXYN f x y n) = x := by
  unfold fieldX wordXYN
  rw [bitField_trunc16]
  apply Fin.ext
  rw [Fin.val_ofNat]
  omega

theorem fieldY_wordXYN {f n : Nat} (x y : Reg) (hn : n ≤ 15) : fieldY (wordXYN f x y n) = y := by
  unfold fieldY wordXYN
  rw [bitField_trunc16]
  apply Fin.ext
  rw [Fin.val_ofNat]
  omega

theorem fieldN_wordXYN {f n : Nat} (x y : Reg) (hn : n ≤ 15) : fieldN (wordXYN f x y n) = n := by
  unfold fieldN wordXYN
  rw [bitField_trunc16]
  omega

/-! ### The fields of any word -/

theorem fieldFamily_eq (w : Word) : fieldFamily w = w.toNat / 4096 := by
  have := w.isLt
  unfold fieldFamily bitField
  omega

theorem fieldX_val (w : Word) : (fieldX w).val = w.toNat / 256 % 16 := by
  unfold fieldX bitField
  rw [Fin.val_ofNat]
  omega

theorem fieldY_val (w : Word) : (fieldY w).val = w.toNat / 16 % 16 := by
  unfold fieldY bitField
  rw [Fin.val_ofNat]
  omega

theorem fieldN_eq (w : Word) : fieldN w = w.toNat % 16 := by
  unfold fieldN bitField
  omega

theorem lowField_eq (w : Word) : bitField w 7 0 = w.toNat % 256 := by
  unfold bitField
  omega

theorem fieldNN_toNat (w : Word) : (fieldNN w).toNat = w.toNat % 256 := by
  unfold fieldNN
  rw [lowField_eq, BitVec.toNat_ofNat]
  omega

theorem fieldNNN_toNat (w : Word) : (fieldNNN w).toNat = w.toNat % 4096 := by
  unfold fieldNNN bitField
  rw [BitVec.toNat_ofNat]
  omega

/-! ### Two bytes as a word -/

/-- The word of two bytes is big-endian (R68, R71). -/
theorem wordOfBytes_toNat (hi lo : Byte) :
    (wordOfBytes hi lo).toNat = hi.toNat * 256 + lo.toNat := by
  unfold wordOfBytes
  rw [BitVec.toNat_ofNat]
  omega

/-- The two bytes of a word make the word. -/
theorem wordOfBytes_bytes (w : Word) : wordOfBytes (highByte w) (lowByte w) = w := by
  apply BitVec.eq_of_toNat_eq
  have := w.isLt
  unfold highByte lowByte bitField
  rw [wordOfBytes_toNat, BitVec.toNat_ofNat, BitVec.toNat_ofNat]
  omega

/-! ### The decoder's errors -/

/-- The decoder rejects a word only as unknown, and by that word. -/
theorem decode_error {w : Word} {e : DecodeError} (h : decode w = .error e) :
    e = .unknownOpcode w := by
  unfold decode decodeFamily0 decodeFamily5 decodeFamily8 decodeFamily9 decodeFamilyE
    decodeFamilyF at h
  repeat' split at h
  all_goals cases h
  all_goals rfl

/-! ### A word under the masks of R94 -/

theorem and_mask_F000 (w : Word) : (w &&& (0xF000 : Word)).toNat = w.toNat / 4096 * 4096 := by
  have h : w &&& (0xF000 : Word) = (w >>> 12) <<< 12 := by
    ext i hi
    interval_cases i <;> simp
  have := w.isLt
  rw [h]
  simp [Nat.shiftRight_eq_div_pow, Nat.shiftLeft_eq]
  omega

theorem and_mask_000F (w : Word) : (w &&& (0x000F : Word)).toNat = w.toNat % 16 := by
  rw [BitVec.toNat_and]
  exact Nat.and_two_pow_sub_one_eq_mod _ 4

theorem and_mask_00FF (w : Word) : (w &&& (0x00FF : Word)).toNat = w.toNat % 256 := by
  rw [BitVec.toNat_and]
  exact Nat.and_two_pow_sub_one_eq_mod _ 8

/-- A word under two disjoint masks together is its two parts added. -/
theorem and_masks_toNat (w a b : Word) (h : a &&& b = 0) :
    (w &&& (a ||| b)).toNat = (w &&& a).toNat + (w &&& b).toNat := by
  have hd : w &&& a &&& (w &&& b) = 0 := by
    rw [BitVec.and_assoc, ← BitVec.and_assoc a, BitVec.and_comm a, BitVec.and_assoc w, h]
    simp
  rw [← BitVec.toNat_add_of_and_eq_zero hd, BitVec.add_eq_or_of_and_eq_zero _ _ hd]
  congr 1
  ext i hi
  simp
  cases w[i] <;> simp

theorem and_mask_F00F (w : Word) :
    (w &&& (0xF00F : Word)).toNat = w.toNat / 4096 * 4096 + w.toNat % 16 := by
  rw [← and_mask_F000, ← and_mask_000F, ← and_masks_toNat w _ _ (by decide)]
  rfl

theorem and_mask_F0FF (w : Word) :
    (w &&& (0xF0FF : Word)).toNat = w.toNat / 4096 * 4096 + w.toNat % 256 := by
  rw [← and_mask_F000, ← and_mask_00FF, ← and_masks_toNat w _ _ (by decide)]
  rfl

/-- Every instruction belongs to one of the 34 rows. -/
theorem row_mem_opcodeMap (i : Instr) : i.row ∈ opcodeMap := by
  cases i <;> simp [opcodeMap, Instr.row]

end Sys2Proof
end

