-- ==== Sys2Proof/Laws/State.lean ====
section
/-! SUPPORT. What each update of the state leaves in each field, true by unfolding, and reading a register
after an update. Later proofs rewrite with these and unfold no update. -/

namespace Sys2Proof.Machine

variable (s : State)

/-! #### setReg -/

@[simp] theorem State.setReg_v (r : Reg) (b : Byte) : (s.setReg r b).v = s.v.set r.val b := rfl
@[simp] theorem State.setReg_i (r : Reg) (b : Byte) : (s.setReg r b).i = s.i := rfl
@[simp] theorem State.setReg_pc (r : Reg) (b : Byte) : (s.setReg r b).pc = s.pc := rfl
@[simp] theorem State.setReg_stack (r : Reg) (b : Byte) : (s.setReg r b).stack = s.stack := rfl
@[simp] theorem State.setReg_sp (r : Reg) (b : Byte) : (s.setReg r b).sp = s.sp := rfl
@[simp] theorem State.setReg_dt (r : Reg) (b : Byte) : (s.setReg r b).dt = s.dt := rfl
@[simp] theorem State.setReg_st (r : Reg) (b : Byte) : (s.setReg r b).st = s.st := rfl
@[simp] theorem State.setReg_key (r : Reg) (b : Byte) : (s.setReg r b).key = s.key := rfl
@[simp] theorem State.setReg_fb (r : Reg) (b : Byte) : (s.setReg r b).fb = s.fb := rfl
@[simp] theorem State.setReg_redraw (r : Reg) (b : Byte) : (s.setReg r b).redraw = s.redraw := rfl
@[simp] theorem State.setReg_fault (r : Reg) (b : Byte) : (s.setReg r b).fault = s.fault := rfl
@[simp] theorem State.setReg_mem (r : Reg) (b : Byte) : (s.setReg r b).mem = s.mem := rfl
@[simp] theorem State.setReg_rnd (r : Reg) (b : Byte) : (s.setReg r b).rnd = s.rnd := rfl
@[simp] theorem State.setReg_draws (r : Reg) (b : Byte) : (s.setReg r b).draws = s.draws := rfl

/-! #### setFlag -/

@[simp] theorem State.setFlag_v (c : Bool) : (s.setFlag c).v = s.v.set vf.val (flagByte c) := rfl
@[simp] theorem State.setFlag_i (c : Bool) : (s.setFlag c).i = s.i := rfl
@[simp] theorem State.setFlag_pc (c : Bool) : (s.setFlag c).pc = s.pc := rfl
@[simp] theorem State.setFlag_stack (c : Bool) : (s.setFlag c).stack = s.stack := rfl
@[simp] theorem State.setFlag_sp (c : Bool) : (s.setFlag c).sp = s.sp := rfl
@[simp] theorem State.setFlag_dt (c : Bool) : (s.setFlag c).dt = s.dt := rfl
@[simp] theorem State.setFlag_st (c : Bool) : (s.setFlag c).st = s.st := rfl
@[simp] theorem State.setFlag_key (c : Bool) : (s.setFlag c).key = s.key := rfl
@[simp] theorem State.setFlag_fb (c : Bool) : (s.setFlag c).fb = s.fb := rfl
@[simp] theorem State.setFlag_redraw (c : Bool) : (s.setFlag c).redraw = s.redraw := rfl
@[simp] theorem State.setFlag_fault (c : Bool) : (s.setFlag c).fault = s.fault := rfl
@[simp] theorem State.setFlag_mem (c : Bool) : (s.setFlag c).mem = s.mem := rfl
@[simp] theorem State.setFlag_rnd (c : Bool) : (s.setFlag c).rnd = s.rnd := rfl
@[simp] theorem State.setFlag_draws (c : Bool) : (s.setFlag c).draws = s.draws := rfl

/-! #### setRegs -/

@[simp] theorem State.setRegs_v (bs : List Byte) : (s.setRegs bs).v = writeRegs s.v 0 bs := rfl
@[simp] theorem State.setRegs_i (bs : List Byte) : (s.setRegs bs).i = s.i := rfl
@[simp] theorem State.setRegs_pc (bs : List Byte) : (s.setRegs bs).pc = s.pc := rfl
@[simp] theorem State.setRegs_stack (bs : List Byte) : (s.setRegs bs).stack = s.stack := rfl
@[simp] theorem State.setRegs_sp (bs : List Byte) : (s.setRegs bs).sp = s.sp := rfl
@[simp] theorem State.setRegs_dt (bs : List Byte) : (s.setRegs bs).dt = s.dt := rfl
@[simp] theorem State.setRegs_st (bs : List Byte) : (s.setRegs bs).st = s.st := rfl
@[simp] theorem State.setRegs_key (bs : List Byte) : (s.setRegs bs).key = s.key := rfl
@[simp] theorem State.setRegs_fb (bs : List Byte) : (s.setRegs bs).fb = s.fb := rfl
@[simp] theorem State.setRegs_redraw (bs : List Byte) : (s.setRegs bs).redraw = s.redraw := rfl
@[simp] theorem State.setRegs_fault (bs : List Byte) : (s.setRegs bs).fault = s.fault := rfl
@[simp] theorem State.setRegs_mem (bs : List Byte) : (s.setRegs bs).mem = s.mem := rfl
@[simp] theorem State.setRegs_rnd (bs : List Byte) : (s.setRegs bs).rnd = s.rnd := rfl
@[simp] theorem State.setRegs_draws (bs : List Byte) : (s.setRegs bs).draws = s.draws := rfl

/-! #### setIndex -/

@[simp] theorem State.setIndex_v (a : Word) : (s.setIndex a).v = s.v := rfl
@[simp] theorem State.setIndex_i (a : Word) : (s.setIndex a).i = a := rfl
@[simp] theorem State.setIndex_pc (a : Word) : (s.setIndex a).pc = s.pc := rfl
@[simp] theorem State.setIndex_stack (a : Word) : (s.setIndex a).stack = s.stack := rfl
@[simp] theorem State.setIndex_sp (a : Word) : (s.setIndex a).sp = s.sp := rfl
@[simp] theorem State.setIndex_dt (a : Word) : (s.setIndex a).dt = s.dt := rfl
@[simp] theorem State.setIndex_st (a : Word) : (s.setIndex a).st = s.st := rfl
@[simp] theorem State.setIndex_key (a : Word) : (s.setIndex a).key = s.key := rfl
@[simp] theorem State.setIndex_fb (a : Word) : (s.setIndex a).fb = s.fb := rfl
@[simp] theorem State.setIndex_redraw (a : Word) : (s.setIndex a).redraw = s.redraw := rfl
@[simp] theorem State.setIndex_fault (a : Word) : (s.setIndex a).fault = s.fault := rfl
@[simp] theorem State.setIndex_mem (a : Word) : (s.setIndex a).mem = s.mem := rfl
@[simp] theorem State.setIndex_rnd (a : Word) : (s.setIndex a).rnd = s.rnd := rfl
@[simp] theorem State.setIndex_draws (a : Word) : (s.setIndex a).draws = s.draws := rfl

/-! #### setPc -/

@[simp] theorem State.setPc_v (a : Word) : (s.setPc a).v = s.v := rfl
@[simp] theorem State.setPc_i (a : Word) : (s.setPc a).i = s.i := rfl
@[simp] theorem State.setPc_pc (a : Word) : (s.setPc a).pc = a := rfl
@[simp] theorem State.setPc_stack (a : Word) : (s.setPc a).stack = s.stack := rfl
@[simp] theorem State.setPc_sp (a : Word) : (s.setPc a).sp = s.sp := rfl
@[simp] theorem State.setPc_dt (a : Word) : (s.setPc a).dt = s.dt := rfl
@[simp] theorem State.setPc_st (a : Word) : (s.setPc a).st = s.st := rfl
@[simp] theorem State.setPc_key (a : Word) : (s.setPc a).key = s.key := rfl
@[simp] theorem State.setPc_fb (a : Word) : (s.setPc a).fb = s.fb := rfl
@[simp] theorem State.setPc_redraw (a : Word) : (s.setPc a).redraw = s.redraw := rfl
@[simp] theorem State.setPc_fault (a : Word) : (s.setPc a).fault = s.fault := rfl
@[simp] theorem State.setPc_mem (a : Word) : (s.setPc a).mem = s.mem := rfl
@[simp] theorem State.setPc_rnd (a : Word) : (s.setPc a).rnd = s.rnd := rfl
@[simp] theorem State.setPc_draws (a : Word) : (s.setPc a).draws = s.draws := rfl

/-! #### advance -/

@[simp] theorem State.advance_v : (s.advance).v = s.v := rfl
@[simp] theorem State.advance_i : (s.advance).i = s.i := rfl
@[simp] theorem State.advance_pc : (s.advance).pc = s.pc + 2 := rfl
@[simp] theorem State.advance_stack : (s.advance).stack = s.stack := rfl
@[simp] theorem State.advance_sp : (s.advance).sp = s.sp := rfl
@[simp] theorem State.advance_dt : (s.advance).dt = s.dt := rfl
@[simp] theorem State.advance_st : (s.advance).st = s.st := rfl
@[simp] theorem State.advance_key : (s.advance).key = s.key := rfl
@[simp] theorem State.advance_fb : (s.advance).fb = s.fb := rfl
@[simp] theorem State.advance_redraw : (s.advance).redraw = s.redraw := rfl
@[simp] theorem State.advance_fault : (s.advance).fault = s.fault := rfl
@[simp] theorem State.advance_mem : (s.advance).mem = s.mem := rfl
@[simp] theorem State.advance_rnd : (s.advance).rnd = s.rnd := rfl
@[simp] theorem State.advance_draws : (s.advance).draws = s.draws := rfl

/-! #### skipIf -/

@[simp] theorem State.skipIf_v (c : Bool) : (s.skipIf c).v = s.v := rfl
@[simp] theorem State.skipIf_i (c : Bool) : (s.skipIf c).i = s.i := rfl
@[simp] theorem State.skipIf_pc (c : Bool) : (s.skipIf c).pc = s.pc + if c then 4 else 2 := rfl
@[simp] theorem State.skipIf_stack (c : Bool) : (s.skipIf c).stack = s.stack := rfl
@[simp] theorem State.skipIf_sp (c : Bool) : (s.skipIf c).sp = s.sp := rfl
@[simp] theorem State.skipIf_dt (c : Bool) : (s.skipIf c).dt = s.dt := rfl
@[simp] theorem State.skipIf_st (c : Bool) : (s.skipIf c).st = s.st := rfl
@[simp] theorem State.skipIf_key (c : Bool) : (s.skipIf c).key = s.key := rfl
@[simp] theorem State.skipIf_fb (c : Bool) : (s.skipIf c).fb = s.fb := rfl
@[simp] theorem State.skipIf_redraw (c : Bool) : (s.skipIf c).redraw = s.redraw := rfl
@[simp] theorem State.skipIf_fault (c : Bool) : (s.skipIf c).fault = s.fault := rfl
@[simp] theorem State.skipIf_mem (c : Bool) : (s.skipIf c).mem = s.mem := rfl
@[simp] theorem State.skipIf_rnd (c : Bool) : (s.skipIf c).rnd = s.rnd := rfl
@[simp] theorem State.skipIf_draws (c : Bool) : (s.skipIf c).draws = s.draws := rfl

/-! #### setDelay -/

@[simp] theorem State.setDelay_v (b : Byte) : (s.setDelay b).v = s.v := rfl
@[simp] theorem State.setDelay_i (b : Byte) : (s.setDelay b).i = s.i := rfl
@[simp] theorem State.setDelay_pc (b : Byte) : (s.setDelay b).pc = s.pc := rfl
@[simp] theorem State.setDelay_stack (b : Byte) : (s.setDelay b).stack = s.stack := rfl
@[simp] theorem State.setDelay_sp (b : Byte) : (s.setDelay b).sp = s.sp := rfl
@[simp] theorem State.setDelay_dt (b : Byte) : (s.setDelay b).dt = b := rfl
@[simp] theorem State.setDelay_st (b : Byte) : (s.setDelay b).st = s.st := rfl
@[simp] theorem State.setDelay_key (b : Byte) : (s.setDelay b).key = s.key := rfl
@[simp] theorem State.setDelay_fb (b : Byte) : (s.setDelay b).fb = s.fb := rfl
@[simp] theorem State.setDelay_redraw (b : Byte) : (s.setDelay b).redraw = s.redraw := rfl
@[simp] theorem State.setDelay_fault (b : Byte) : (s.setDelay b).fault = s.fault := rfl
@[simp] theorem State.setDelay_mem (b : Byte) : (s.setDelay b).mem = s.mem := rfl
@[simp] theorem State.setDelay_rnd (b : Byte) : (s.setDelay b).rnd = s.rnd := rfl
@[simp] theorem State.setDelay_draws (b : Byte) : (s.setDelay b).draws = s.draws := rfl

/-! #### setSound -/

@[simp] theorem State.setSound_v (b : Byte) : (s.setSound b).v = s.v := rfl
@[simp] theorem State.setSound_i (b : Byte) : (s.setSound b).i = s.i := rfl
@[simp] theorem State.setSound_pc (b : Byte) : (s.setSound b).pc = s.pc := rfl
@[simp] theorem State.setSound_stack (b : Byte) : (s.setSound b).stack = s.stack := rfl
@[simp] theorem State.setSound_sp (b : Byte) : (s.setSound b).sp = s.sp := rfl
@[simp] theorem State.setSound_dt (b : Byte) : (s.setSound b).dt = s.dt := rfl
@[simp] theorem State.setSound_st (b : Byte) : (s.setSound b).st = b := rfl
@[simp] theorem State.setSound_key (b : Byte) : (s.setSound b).key = s.key := rfl
@[simp] theorem State.setSound_fb (b : Byte) : (s.setSound b).fb = s.fb := rfl
@[simp] theorem State.setSound_redraw (b : Byte) : (s.setSound b).redraw = s.redraw := rfl
@[simp] theorem State.setSound_fault (b : Byte) : (s.setSound b).fault = s.fault := rfl
@[simp] theorem State.setSound_mem (b : Byte) : (s.setSound b).mem = s.mem := rfl
@[simp] theorem State.setSound_rnd (b : Byte) : (s.setSound b).rnd = s.rnd := rfl
@[simp] theorem State.setSound_draws (b : Byte) : (s.setSound b).draws = s.draws := rfl

/-! #### setMem -/

@[simp] theorem State.setMem_v (m : Memory) : (s.setMem m).v = s.v := rfl
@[simp] theorem State.setMem_i (m : Memory) : (s.setMem m).i = s.i := rfl
@[simp] theorem State.setMem_pc (m : Memory) : (s.setMem m).pc = s.pc := rfl
@[simp] theorem State.setMem_stack (m : Memory) : (s.setMem m).stack = s.stack := rfl
@[simp] theorem State.setMem_sp (m : Memory) : (s.setMem m).sp = s.sp := rfl
@[simp] theorem State.setMem_dt (m : Memory) : (s.setMem m).dt = s.dt := rfl
@[simp] theorem State.setMem_st (m : Memory) : (s.setMem m).st = s.st := rfl
@[simp] theorem State.setMem_key (m : Memory) : (s.setMem m).key = s.key := rfl
@[simp] theorem State.setMem_fb (m : Memory) : (s.setMem m).fb = s.fb := rfl
@[simp] theorem State.setMem_redraw (m : Memory) : (s.setMem m).redraw = s.redraw := rfl
@[simp] theorem State.setMem_fault (m : Memory) : (s.setMem m).fault = s.fault := rfl
@[simp] theorem State.setMem_mem (m : Memory) : (s.setMem m).mem = m := rfl
@[simp] theorem State.setMem_rnd (m : Memory) : (s.setMem m).rnd = s.rnd := rfl
@[simp] theorem State.setMem_draws (m : Memory) : (s.setMem m).draws = s.draws := rfl

/-! #### drawRnd -/

@[simp] theorem State.drawRnd_v : (s.drawRnd).v = s.v := rfl
@[simp] theorem State.drawRnd_i : (s.drawRnd).i = s.i := rfl
@[simp] theorem State.drawRnd_pc : (s.drawRnd).pc = s.pc := rfl
@[simp] theorem State.drawRnd_stack : (s.drawRnd).stack = s.stack := rfl
@[simp] theorem State.drawRnd_sp : (s.drawRnd).sp = s.sp := rfl
@[simp] theorem State.drawRnd_dt : (s.drawRnd).dt = s.dt := rfl
@[simp] theorem State.drawRnd_st : (s.drawRnd).st = s.st := rfl
@[simp] theorem State.drawRnd_key : (s.drawRnd).key = s.key := rfl
@[simp] theorem State.drawRnd_fb : (s.drawRnd).fb = s.fb := rfl
@[simp] theorem State.drawRnd_redraw : (s.drawRnd).redraw = s.redraw := rfl
@[simp] theorem State.drawRnd_fault : (s.drawRnd).fault = s.fault := rfl
@[simp] theorem State.drawRnd_mem : (s.drawRnd).mem = s.mem := rfl
@[simp] theorem State.drawRnd_rnd : (s.drawRnd).rnd = Config.freeByte s.draws := rfl
@[simp] theorem State.drawRnd_draws : (s.drawRnd).draws = s.draws + 1 := rfl

/-! #### setScreen -/

@[simp] theorem State.setScreen_v (fb : Framebuffer) : (s.setScreen fb).v = s.v := rfl
@[simp] theorem State.setScreen_i (fb : Framebuffer) : (s.setScreen fb).i = s.i := rfl
@[simp] theorem State.setScreen_pc (fb : Framebuffer) : (s.setScreen fb).pc = s.pc := rfl
@[simp] theorem State.setScreen_stack (fb : Framebuffer) : (s.setScreen fb).stack = s.stack := rfl
@[simp] theorem State.setScreen_sp (fb : Framebuffer) : (s.setScreen fb).sp = s.sp := rfl
@[simp] theorem State.setScreen_dt (fb : Framebuffer) : (s.setScreen fb).dt = s.dt := rfl
@[simp] theorem State.setScreen_st (fb : Framebuffer) : (s.setScreen fb).st = s.st := rfl
@[simp] theorem State.setScreen_key (fb : Framebuffer) : (s.setScreen fb).key = s.key := rfl
@[simp] theorem State.setScreen_fb (fb : Framebuffer) : (s.setScreen fb).fb = fb := rfl
@[simp] theorem State.setScreen_redraw (fb : Framebuffer) : (s.setScreen fb).redraw = true := rfl
@[simp] theorem State.setScreen_fault (fb : Framebuffer) : (s.setScreen fb).fault = s.fault := rfl
@[simp] theorem State.setScreen_mem (fb : Framebuffer) : (s.setScreen fb).mem = s.mem := rfl
@[simp] theorem State.setScreen_rnd (fb : Framebuffer) : (s.setScreen fb).rnd = s.rnd := rfl
@[simp] theorem State.setScreen_draws (fb : Framebuffer) : (s.setScreen fb).draws = s.draws := rfl

/-! #### tick -/

@[simp] theorem State.tick_v : (s.tick).v = s.v := rfl
@[simp] theorem State.tick_i : (s.tick).i = s.i := rfl
@[simp] theorem State.tick_pc : (s.tick).pc = s.pc := rfl
@[simp] theorem State.tick_stack : (s.tick).stack = s.stack := rfl
@[simp] theorem State.tick_sp : (s.tick).sp = s.sp := rfl
@[simp] theorem State.tick_dt : (s.tick).dt = tickDown s.dt := rfl
@[simp] theorem State.tick_st : (s.tick).st = tickDown s.st := rfl
@[simp] theorem State.tick_key : (s.tick).key = s.key := rfl
@[simp] theorem State.tick_fb : (s.tick).fb = s.fb := rfl
@[simp] theorem State.tick_redraw : (s.tick).redraw = s.redraw := rfl
@[simp] theorem State.tick_fault : (s.tick).fault = s.fault := rfl
@[simp] theorem State.tick_mem : (s.tick).mem = s.mem := rfl
@[simp] theorem State.tick_rnd : (s.tick).rnd = s.rnd := rfl
@[simp] theorem State.tick_draws : (s.tick).draws = s.draws := rfl

/-! #### supplyRnd -/

@[simp] theorem State.supplyRnd_v (b : Byte) : (s.supplyRnd b).v = s.v := rfl
@[simp] theorem State.supplyRnd_i (b : Byte) : (s.supplyRnd b).i = s.i := rfl
@[simp] theorem State.supplyRnd_pc (b : Byte) : (s.supplyRnd b).pc = s.pc := rfl
@[simp] theorem State.supplyRnd_stack (b : Byte) : (s.supplyRnd b).stack = s.stack := rfl
@[simp] theorem State.supplyRnd_sp (b : Byte) : (s.supplyRnd b).sp = s.sp := rfl
@[simp] theorem State.supplyRnd_dt (b : Byte) : (s.supplyRnd b).dt = s.dt := rfl
@[simp] theorem State.supplyRnd_st (b : Byte) : (s.supplyRnd b).st = s.st := rfl
@[simp] theorem State.supplyRnd_key (b : Byte) : (s.supplyRnd b).key = s.key := rfl
@[simp] theorem State.supplyRnd_fb (b : Byte) : (s.supplyRnd b).fb = s.fb := rfl
@[simp] theorem State.supplyRnd_redraw (b : Byte) : (s.supplyRnd b).redraw = s.redraw := rfl
@[simp] theorem State.supplyRnd_fault (b : Byte) : (s.supplyRnd b).fault = s.fault := rfl
@[simp] theorem State.supplyRnd_mem (b : Byte) : (s.supplyRnd b).mem = s.mem := rfl
@[simp] theorem State.supplyRnd_rnd (b : Byte) : (s.supplyRnd b).rnd = b := rfl
@[simp] theorem State.supplyRnd_draws (b : Byte) : (s.supplyRnd b).draws = s.draws := rfl

/-! #### setKey -/

@[simp] theorem State.setKey_v (k : Key) (c : Bool) : (s.setKey k c).v = s.v := rfl
@[simp] theorem State.setKey_i (k : Key) (c : Bool) : (s.setKey k c).i = s.i := rfl
@[simp] theorem State.setKey_pc (k : Key) (c : Bool) : (s.setKey k c).pc = s.pc := rfl
@[simp] theorem State.setKey_stack (k : Key) (c : Bool) : (s.setKey k c).stack = s.stack := rfl
@[simp] theorem State.setKey_sp (k : Key) (c : Bool) : (s.setKey k c).sp = s.sp := rfl
@[simp] theorem State.setKey_dt (k : Key) (c : Bool) : (s.setKey k c).dt = s.dt := rfl
@[simp] theorem State.setKey_st (k : Key) (c : Bool) : (s.setKey k c).st = s.st := rfl
@[simp] theorem State.setKey_key (k : Key) (c : Bool) : (s.setKey k c).key = s.key.set k.val c := rfl
@[simp] theorem State.setKey_fb (k : Key) (c : Bool) : (s.setKey k c).fb = s.fb := rfl
@[simp] theorem State.setKey_redraw (k : Key) (c : Bool) : (s.setKey k c).redraw = s.redraw := rfl
@[simp] theorem State.setKey_fault (k : Key) (c : Bool) : (s.setKey k c).fault = s.fault := rfl
@[simp] theorem State.setKey_mem (k : Key) (c : Bool) : (s.setKey k c).mem = s.mem := rfl
@[simp] theorem State.setKey_rnd (k : Key) (c : Bool) : (s.setKey k c).rnd = s.rnd := rfl
@[simp] theorem State.setKey_draws (k : Key) (c : Bool) : (s.setKey k c).draws = s.draws := rfl

/-! #### clearRedraw -/

@[simp] theorem State.clearRedraw_v : (s.clearRedraw).v = s.v := rfl
@[simp] theorem State.clearRedraw_i : (s.clearRedraw).i = s.i := rfl
@[simp] theorem State.clearRedraw_pc : (s.clearRedraw).pc = s.pc := rfl
@[simp] theorem State.clearRedraw_stack : (s.clearRedraw).stack = s.stack := rfl
@[simp] theorem State.clearRedraw_sp : (s.clearRedraw).sp = s.sp := rfl
@[simp] theorem State.clearRedraw_dt : (s.clearRedraw).dt = s.dt := rfl
@[simp] theorem State.clearRedraw_st : (s.clearRedraw).st = s.st := rfl
@[simp] theorem State.clearRedraw_key : (s.clearRedraw).key = s.key := rfl
@[simp] theorem State.clearRedraw_fb : (s.clearRedraw).fb = s.fb := rfl
@[simp] theorem State.clearRedraw_redraw : (s.clearRedraw).redraw = false := rfl
@[simp] theorem State.clearRedraw_fault : (s.clearRedraw).fault = s.fault := rfl
@[simp] theorem State.clearRedraw_mem : (s.clearRedraw).mem = s.mem := rfl
@[simp] theorem State.clearRedraw_rnd : (s.clearRedraw).rnd = s.rnd := rfl
@[simp] theorem State.clearRedraw_draws : (s.clearRedraw).draws = s.draws := rfl

/-! #### Reading a register -/

theorem State.reg_setReg (x r : Reg) (b : Byte) :
    (s.setReg x b).reg r = if r = x then b else s.reg r := by
  simp only [State.reg, State.setReg_v, Vector.getElem_set, Fin.ext_iff, eq_comm]

@[simp] theorem State.reg_setReg_self (x : Reg) (b : Byte) : (s.setReg x b).reg x = b := by
  simp [State.reg_setReg]

theorem State.reg_setReg_other (x r : Reg) (b : Byte) (h : r ≠ x) :
    (s.setReg x b).reg r = s.reg r := by
  simp [State.reg_setReg, h]

theorem State.reg_setFlag (r : Reg) (c : Bool) :
    (s.setFlag c).reg r = if r = vf then flagByte c else s.reg r := s.reg_setReg vf r _

@[simp] theorem State.reg_setIndex (a : Word) (r : Reg) : (s.setIndex a).reg r = s.reg r := rfl
@[simp] theorem State.reg_setPc (a : Word) (r : Reg) : (s.setPc a).reg r = s.reg r := rfl
@[simp] theorem State.reg_advance (r : Reg) : (s.advance).reg r = s.reg r := rfl
@[simp] theorem State.reg_skipIf (c : Bool) (r : Reg) : (s.skipIf c).reg r = s.reg r := rfl
@[simp] theorem State.reg_setDelay (b : Byte) (r : Reg) : (s.setDelay b).reg r = s.reg r := rfl
@[simp] theorem State.reg_setSound (b : Byte) (r : Reg) : (s.setSound b).reg r = s.reg r := rfl
@[simp] theorem State.reg_setMem (m : Memory) (r : Reg) : (s.setMem m).reg r = s.reg r := rfl
@[simp] theorem State.reg_drawRnd (r : Reg) : (s.drawRnd).reg r = s.reg r := rfl
@[simp] theorem State.reg_setScreen (fb : Framebuffer) (r : Reg) : (s.setScreen fb).reg r = s.reg r := rfl
@[simp] theorem State.reg_tick (r : Reg) : (s.tick).reg r = s.reg r := rfl
@[simp] theorem State.reg_supplyRnd (b : Byte) (r : Reg) : (s.supplyRnd b).reg r = s.reg r := rfl
@[simp] theorem State.reg_setKey (k : Key) (c : Bool) (r : Reg) : (s.setKey k c).reg r = s.reg r := rfl
@[simp] theorem State.reg_clearRedraw (r : Reg) : (s.clearRedraw).reg r = s.reg r := rfl
@[simp] theorem State.reg_withFault (f : Option FatalRecord) (r : Reg) :
    ({ s with fault := f } : State).reg r = s.reg r := rfl

end Sys2Proof.Machine
end

