-- ==== Sys2Proof/Laws/Memory.lean ====
section
/-! SUPPORT. The laws of memory: what a byte reads as after a write, the canonical form, and the spec
lemmas of the checked accesses and of the multi-byte loads and stores. -/

namespace Sys2Proof.Machine

/-! ### Cells -/

theorem lookupCell_insertCell (a b : Nat) (v : Byte) (cs : List Host.Cell) :
    lookupCell b (insertCell a v cs) = if b = a then some v else lookupCell b cs := by
  induction cs with
  | nil =>
    by_cases h : b = a
    · simp [insertCell, lookupCell, h]
    · simp [insertCell, lookupCell, h, Ne.symm h]
  | cons c cs ih =>
    unfold insertCell
    split
    · by_cases h : b = a
      · simp [lookupCell, h]
      · simp [lookupCell, h, Ne.symm h]
    · split
      · rename_i hc
        subst hc
        by_cases h : b = c.1
        · simp [lookupCell, h]
        · simp [lookupCell, h, Ne.symm h]
      · rename_i hc
        by_cases h : c.1 = b
        · subst h; simp [lookupCell, hc]
        · simp [lookupCell, h, ih]

theorem lookupCell_eraseCell (a b : Nat) (cs : List Host.Cell) :
    lookupCell b (eraseCell a cs) = if b = a then none else lookupCell b cs := by
  induction cs with
  | nil => simp [eraseCell, lookupCell]
  | cons c cs ih =>
    unfold eraseCell at ih ⊢
    by_cases hc : c.1 = a
    · rw [List.filter_cons_of_neg (by simp [hc]), ih]
      by_cases h : b = a
      · simp [h]
      · simp [h, lookupCell, hc, Ne.symm h]
    · rw [List.filter_cons_of_pos (by simp [hc])]
      by_cases h : c.1 = b
      · subst h; simp [lookupCell, hc]
      · simp only [lookupCell, if_neg h, ih]

theorem lookupCell_of_forall_ne (a : Nat) (cs : List Host.Cell) (h : ∀ c ∈ cs, c.1 ≠ a) :
    lookupCell a cs = none := by
  induction cs with
  | nil => rfl
  | cons c cs ih =>
    simp only [lookupCell, if_neg (h c (by simp))]
    exact ih (fun d hd => h d (by simp [hd]))

theorem lookupCell_of_mem {cs : List Host.Cell} (hs : cs.Pairwise (fun c d => c.1 < d.1))
    {c : Host.Cell} (hc : c ∈ cs) : lookupCell c.1 cs = some c.2 := by
  induction cs with
  | nil => simp at hc
  | cons d ds ih =>
    rw [List.pairwise_cons] at hs
    rcases List.mem_cons.mp hc with rfl | hc
    · simp [lookupCell]
    · have : d.1 ≠ c.1 := Nat.ne_of_lt (hs.1 c hc)
      simp [lookupCell, this, ih hs.2 hc]

theorem mem_of_lookupCell {a : Nat} {v : Byte} {cs : List Host.Cell}
    (h : lookupCell a cs = some v) : (a, v) ∈ cs := by
  induction cs with
  | nil => simp [lookupCell] at h
  | cons c cs ih =>
    unfold lookupCell at h
    split at h
    · rename_i hc
      cases h
      subst hc
      simp
    · exact List.mem_cons_of_mem _ (ih h)

theorem mem_insertCell {a : Nat} {v : Byte} {c : Host.Cell} {cs : List Host.Cell}
    (h : c ∈ insertCell a v cs) : c = (a, v) ∨ c ∈ cs := by
  induction cs with
  | nil => simpa [insertCell] using h
  | cons d ds ih =>
    unfold insertCell at h
    split at h
    · simpa using h
    · split at h
      · rcases List.mem_cons.mp h with h | h
        · exact .inl h
        · exact .inr (List.mem_cons_of_mem _ h)
      · rcases List.mem_cons.mp h with h | h
        · exact .inr (by simp [h])
        · rcases ih h with h | h
          · exact .inl h
          · exact .inr (List.mem_cons_of_mem _ h)

theorem pairwise_insertCell (a : Nat) (v : Byte) {cs : List Host.Cell}
    (hs : cs.Pairwise (fun c d => c.1 < d.1)) :
    (insertCell a v cs).Pairwise (fun c d => c.1 < d.1) := by
  induction cs with
  | nil => simp [insertCell]
  | cons c cs ih =>
    have hs' := List.pairwise_cons.mp hs
    unfold insertCell
    split
    · rename_i hlt
      refine List.pairwise_cons.mpr ⟨fun d hd => ?_, hs⟩
      rcases List.mem_cons.mp hd with rfl | hd
      · exact hlt
      · exact Nat.lt_trans hlt (hs'.1 d hd)
    · split
      · rename_i heq
        exact List.pairwise_cons.mpr ⟨fun d hd => by simpa [heq] using hs'.1 d hd, hs'.2⟩
      · rename_i hlt hne
        refine List.pairwise_cons.mpr ⟨fun d hd => ?_, ih hs'.2⟩
        rcases mem_insertCell hd with rfl | hd
        · exact Nat.lt_of_le_of_ne (Nat.le_of_not_lt hlt) hne
        · exact hs'.1 d hd

/-! ### Memory -/

@[simp] theorem Memory.set_glyphs (m : Memory) (a : Nat) (v : Byte) :
    (m.set a v).glyphs = m.glyphs := by
  unfold Memory.set; split <;> rfl

@[simp] theorem Memory.unlisted_set (m : Memory) (a b : Nat) (v : Byte) :
    (m.set a v).unlisted b = m.unlisted b := by
  simp [Memory.unlisted]

/-- A byte after one write. -/
theorem Memory.get_set (m : Memory) (a b : Nat) (v : Byte) :
    (m.set a v).get b = if b = a then v else m.get b := by
  unfold Memory.get
  rw [Memory.unlisted_set]
  unfold Memory.set
  split
  · rename_i hv
    simp only [lookupCell_eraseCell]
    by_cases h : b = a
    · subst h; simp [hv]
    · simp [h]
  · simp only [lookupCell_insertCell]
    by_cases h : b = a <;> simp [h]

/-- A write to a writable address keeps the canonical form. -/
theorem Memory.wf_set {m : Memory} (hm : m.wf) {a : Nat} (v : Byte) (hlo : 0x050 ≤ a)
    (hhi : a ≤ 0xFFF) : (m.set a v).wf := by
  obtain ⟨hs, hc⟩ := hm
  have hu : ∀ b, (m.set a v).unlisted b = m.unlisted b := fun b => by simp
  refine ⟨?_, fun c h => ?_⟩
  · unfold Memory.set
    split
    · exact hs.filter _
    · exact pairwise_insertCell a v hs
  · rw [hu]
    unfold Memory.set at h
    split at h
    · exact hc c (List.mem_filter.mp h).1
    · rename_i hv
      rcases mem_insertCell h with rfl | h
      · exact ⟨hlo, hhi, hv⟩
      · exact hc c h

/-- Outside its writable range a memory in canonical form reads as unlisted. -/
theorem Memory.get_of_not_writable {m : Memory} (hm : m.wf) {a : Nat}
    (h : a < 0x050 ∨ 0xFFF < a) : m.get a = m.unlisted a := by
  unfold Memory.get
  rw [lookupCell_of_forall_ne a m.cells (fun c hc => by have := hm.2 c hc; omega)]
  rfl

/-- The canonical form: of two lists of cells in it, one is determined by what it reads as. -/
theorem cells_eq_of_lookup {f : Nat → Byte} : ∀ {cs ds : List Host.Cell},
    cs.Pairwise (fun c d => c.1 < d.1) → ds.Pairwise (fun c d => c.1 < d.1) →
    (∀ c ∈ cs, c.2 ≠ f c.1) → (∀ d ∈ ds, d.2 ≠ f d.1) →
    (∀ a, (lookupCell a cs).getD (f a) = (lookupCell a ds).getD (f a)) → cs = ds := by
  have key : ∀ {cs ds : List Host.Cell}, cs.Pairwise (fun c d => c.1 < d.1) →
      (∀ c ∈ cs, c.2 ≠ f c.1) →
      (∀ a, (lookupCell a cs).getD (f a) = (lookupCell a ds).getD (f a)) →
      ∀ c ∈ cs, c ∈ ds := by
    intro cs ds hs hc hl c hmem
    have h1 := hl c.1
    rw [lookupCell_of_mem hs hmem] at h1
    cases h2 : lookupCell c.1 ds with
    | none => rw [h2] at h1; exact absurd h1 (hc c hmem)
    | some w =>
      rw [h2] at h1
      have := mem_of_lookupCell h2
      simp only [Option.getD_some] at h1
      rw [← h1] at this
      exact this
  intro cs ds hs ht hc hd hl
  have hns : cs.Nodup := hs.imp (fun h e => by rw [e] at h; exact Nat.lt_irrefl _ h)
  have hnt : ds.Nodup := ht.imp (fun h e => by rw [e] at h; exact Nat.lt_irrefl _ h)
  have hperm : cs.Perm ds := (List.perm_ext_iff_of_nodup hns hnt).mpr fun c =>
    ⟨key hs hc hl c, key ht hd (fun a => (hl a).symm) c⟩
  exact hperm.eq_of_pairwise (fun c d _ _ h1 h2 => absurd h1 (Nat.lt_asymm h2)) hs ht

/-! ### Checked accesses -/

theorem memRead_of_le {m : Memory} {a : Nat} (h : a ≤ 0xFFF) : memRead m a = .ok (m.get a) := by
  simp [memRead, Nat.not_lt.mpr h]

theorem memRead_of_gt {m : Memory} {a : Nat} (h : 0xFFF < a) :
    memRead m a = .error (.outOfBounds .read a) := by
  simp [memRead, h]

/-- Everything a checked read can answer. -/
theorem memRead_cases (m : Memory) (a : Nat) :
    (a ≤ 0xFFF ∧ memRead m a = .ok (m.get a)) ∨
      (0xFFF < a ∧ memRead m a = .error (.outOfBounds .read a)) := by
  rcases Nat.lt_or_ge 0xFFF a with h | h
  · exact .inr ⟨h, memRead_of_gt h⟩
  · exact .inl ⟨h, memRead_of_le h⟩

theorem memWrite_of_writable {m : Memory} {a : Nat} (v : Byte) (hlo : 0x050 ≤ a)
    (hhi : a ≤ 0xFFF) : memWrite m a v = .ok (m.set a v) := by
  rw [memWrite, if_neg (by omega), if_neg (by omega)]

theorem memWrite_of_gt {m : Memory} {a : Nat} (v : Byte) (h : 0xFFF < a) :
    memWrite m a v = .error (.outOfBounds .write a) := by
  rw [memWrite, if_pos h]

theorem memWrite_of_glyph {m : Memory} {a : Nat} (v : Byte) (h : a ≤ 0x04F) :
    memWrite m a v = .error (.outOfBounds .glyphWrite a) := by
  rw [memWrite, if_neg (by omega), if_pos h]

/-- A checked write that answers a memory wrote a writable address. -/
theorem memWrite_ok {m m' : Memory} {a : Nat} {v : Byte} (h : memWrite m a v = .ok m') :
    0x050 ≤ a ∧ a ≤ 0xFFF ∧ m' = m.set a v := by
  unfold memWrite at h
  split at h
  · cases h
  · split at h
    · cases h
    · cases h
      exact ⟨by omega, by omega, rfl⟩

/-! ### Several bytes -/

/-- `n` bytes that all lie in memory. -/
theorem loadBytes_of_le (m : Memory) : ∀ (n a : Nat), a + n ≤ 0x1000 →
    loadBytes m a n = .ok ((List.range n).map fun k => m.get (a + k))
  | 0, _, _ => rfl
  | n + 1, a, h => by
    rw [loadBytes, memRead_of_le (by omega), loadBytes_of_le m n (a + 1) (by omega),
      List.range_succ_eq_map]
    simp [Function.comp_def, Nat.add_assoc, Nat.add_comm 1]

/-- `n` bytes that do not: the first address beyond memory is reported. -/
theorem loadBytes_of_gt (m : Memory) : ∀ (n a : Nat), 0 < n → 0x1000 < a + n →
    loadBytes m a n = .error (.outOfBounds .read (max a 0x1000))
  | 0, _, h, _ => absurd h (by omega)
  | n + 1, a, _, h => by
    rcases Nat.lt_or_ge 0xFFF a with ha | ha
    · rw [loadBytes, memRead_of_gt ha, Nat.max_eq_left (by omega)]
    · rw [loadBytes, memRead_of_le ha, loadBytes_of_gt m n (a + 1) (by omega) (by omega),
        Nat.max_eq_right (by omega), Nat.max_eq_right (by omega)]

/-- Bytes that all go to writable addresses are stored, and nothing else changes. -/
theorem storeBytes_of_le : ∀ (bs : List Byte) (m : Memory) (a : Nat), 0x050 ≤ a →
    a + bs.length ≤ 0x1000 →
    ∃ m', storeBytes m a bs = .ok m' ∧ m'.glyphs = m.glyphs ∧ (m.wf → m'.wf) ∧
      ∀ b, m'.get b = if h : a ≤ b ∧ b < a + bs.length then bs[b - a]'(by omega) else m.get b
  | [], m, a, _, _ => by
    refine ⟨m, rfl, rfl, id, fun b => ?_⟩
    rw [dif_neg (by simp)]
  | v :: bs, m, a, hlo, hhi => by
    simp only [List.length_cons] at hhi
    obtain ⟨m', h1, h2, h3, h4⟩ := storeBytes_of_le bs (m.set a v) (a + 1) (by omega) (by omega)
    refine ⟨m', by rw [storeBytes, memWrite_of_writable v hlo (by omega)]; exact h1,
      by simpa using h2, fun hw => h3 (Memory.wf_set hw v hlo (by omega)), fun b => ?_⟩
    rw [h4 b, Memory.get_set]
    by_cases hb : b = a
    · subst hb; simp
    · by_cases hr : a + 1 ≤ b ∧ b < a + 1 + bs.length
      · rw [dif_pos hr, dif_pos (by simp only [List.length_cons]; omega)]
        have : b - a = (b - (a + 1)) + 1 := by omega
        simp [this]
      · rw [dif_neg hr, dif_neg (by simp only [List.length_cons]; omega), if_neg hb]

/-- Bytes that run beyond memory from a writable or higher address: the first address beyond memory
is reported, and none is stored. -/
theorem storeBytes_of_gt : ∀ (bs : List Byte) (m : Memory) (a : Nat), bs ≠ [] → 0x050 ≤ a →
    0x1000 < a + bs.length → storeBytes m a bs = .error (.outOfBounds .write (max a 0x1000))
  | [], _, _, h, _, _ => absurd rfl h
  | v :: bs, m, a, _, hlo, hhi => by
    simp only [List.length_cons] at hhi
    rcases Nat.lt_or_ge 0xFFF a with ha | ha
    · rw [storeBytes, memWrite_of_gt v ha, Nat.max_eq_left (by omega)]
    · have hne : bs ≠ [] := by
        rintro rfl
        simp at hhi
        omega
      rw [storeBytes, memWrite_of_writable v hlo ha]
      show storeBytes (m.set a v) (a + 1) bs = _
      rw [storeBytes_of_gt bs _ (a + 1) hne (by omega) (by omega), Nat.max_eq_right (by omega),
        Nat.max_eq_right (by omega)]

/-- Bytes that begin in the glyph region: the first address is reported. -/
theorem storeBytes_of_glyph (bs : List Byte) (m : Memory) (a : Nat) (hne : bs ≠ [])
    (h : a ≤ 0x04F) : storeBytes m a bs = .error (.outOfBounds .glyphWrite a) := by
  cases bs with
  | nil => exact absurd rfl hne
  | cons v bs => rw [storeBytes, memWrite_of_glyph v h]

/-- What a store of several bytes that answers a memory did. -/
theorem storeBytes_ok : ∀ (bs : List Byte) (m m' : Memory) (a : Nat), storeBytes m a bs = .ok m' →
    m'.glyphs = m.glyphs ∧ (m.wf → m'.wf) ∧
      (∀ b, ¬(a ≤ b ∧ b < a + bs.length) → m'.get b = m.get b) ∧
      (∀ b ≤ 0x04F, m'.get b = m.get b)
  | [], m, m', a, h => by
    cases h
    exact ⟨rfl, id, fun _ _ => rfl, fun _ _ => rfl⟩
  | v :: bs, m, m', a, h => by
    rw [storeBytes] at h
    split at h
    · cases h
    · rename_i m1 hw
      obtain ⟨hlo, hhi, rfl⟩ := memWrite_ok hw
      obtain ⟨h1, h2, h3, h4⟩ := storeBytes_ok bs _ m' _ h
      refine ⟨by simpa using h1, fun hm => h2 (Memory.wf_set hm v hlo hhi), fun b hb => ?_,
        fun b hb => ?_⟩
      · simp only [List.length_cons] at hb
        rw [h3 b (by omega), Memory.get_set, if_neg (by omega)]
      · rw [h4 b hb, Memory.get_set, if_neg (by omega)]

/-- Bytes stored from `a` up leave every other address as it was. -/
theorem storeBytes_frame : ∀ (bs : List Byte) (m m' : Memory) (a : Nat),
    storeBytes m a bs = .ok m' → ∀ b, ¬ (a ≤ b ∧ b < a + bs.length) → m'.get b = m.get b
  | [], m, m', a, h, b, _ => by cases h; rfl
  | c :: cs, m, m', a, h, b, hb => by
    simp only [storeBytes] at h
    split at h
    · cases h
    · rename_i m1 h1
      have ih := storeBytes_frame cs m1 m' (a + 1) h b (by simp at hb ⊢; omega)
      obtain ⟨_, _, rfl⟩ := memWrite_ok h1
      rw [ih, Memory.get_set, if_neg]
      simp at hb
      omega

/-- As many bytes are loaded as were asked for. -/
theorem loadBytes_length (m : Memory) : ∀ (n a : Nat) (bs : List Byte),
    loadBytes m a n = .ok bs → bs.length = n
  | 0, a, bs, h => by cases h; rfl
  | n + 1, a, bs, h => by
    simp only [loadBytes] at h
    split at h
    · cases h
    · split at h
      · cases h
      · rename_i cs h1
        cases h
        simp [loadBytes_length m n (a + 1) _ h1]

end Sys2Proof.Machine
end

