-- ==== Sys2Proof/Laws/Ops.lean ====
section
/-! SUPPORT. One spec lemma for each shared operation on registers, the call stack, the framebuffer, the
keys and the fatal errors: everything it can do. -/

namespace Sys2Proof.Machine

/-! ### Registers -/

theorem writeRegs_getElem : ∀ (bs : List Byte) (v : Vector Byte 16) (k r : Nat) (hr : r < 16),
    (writeRegs v k bs)[r] = if h : k ≤ r ∧ r < k + bs.length then bs[r - k]'(by omega) else v[r]
  | [], v, k, r, hr => by
    rw [dif_neg (by simp)]; rfl
  | b :: bs, v, k, r, hr => by
    rw [writeRegs, writeRegs_getElem bs _ (k + 1) r hr]
    simp only [List.length_cons]
    by_cases h : k + 1 ≤ r ∧ r < k + 1 + bs.length
    · rw [dif_pos h, dif_pos (by omega)]
      have : r - k = (r - (k + 1)) + 1 := by omega
      simp [this]
    · rw [dif_neg h]
      by_cases hk : k = r
      · subst hk
        rw [dif_pos (by omega)]
        simp
      · rw [dif_neg (by omega)]
        simp [hk]

/-- A register after loading bytes into `V[0]` up. -/
theorem State.reg_setRegs (s : State) (bs : List Byte) (r : Reg) :
    (s.setRegs bs).reg r = if h : r.val < bs.length then bs[r.val] else s.reg r := by
  show (writeRegs s.v 0 bs)[r.val] = _
  rw [writeRegs_getElem]
  by_cases h : r.val < bs.length
  · rw [dif_pos (by omega), dif_pos h]; rfl
  · rw [dif_neg (by omega), dif_neg h]; rfl

@[simp] theorem State.length_regsUpTo (s : State) (x : Reg) :
    (s.regsUpTo x).length = x.val + 1 := by
  simp only [State.regsUpTo, List.length_take, Vector.length_toList]
  omega

theorem State.getElem_regsUpTo (s : State) (x : Reg) (k : Nat) (h : k < (s.regsUpTo x).length) :
    (s.regsUpTo x)[k] = s.reg ⟨k, by rw [State.length_regsUpTo] at h; omega⟩ := by
  simp [State.regsUpTo, State.reg]

/-! ### The call stack -/

/-- Everything `Push` can do. -/
theorem State.push_cases (s : State) (a : Word) :
    (s.sp.val < 16 ∧ ∃ t, s.push a = .ok t ∧ t.sp.val = s.sp.val + 1 ∧
      (∀ k (hk : k < 16), t.stack[k] = if k = s.sp.val then a else s.stack[k]) ∧
      t = { s with stack := t.stack, sp := t.sp }) ∨
    (s.sp.val = 16 ∧ s.push a = .error .stackOverflow) := by
  by_cases h : s.sp.val < 16
  · refine .inl ⟨h, _, dif_pos h, rfl, fun k hk => ?_, rfl⟩
    simp only [Vector.getElem_set, eq_comm]
  · exact .inr ⟨by omega, dif_neg h⟩

/-- Everything `Pop` can do. -/
theorem State.pop_cases (s : State) :
    (∃ h : 0 < s.sp.val, ∃ t, s.pop = .ok (s.stack[s.sp.val - 1]'(by omega), t) ∧
      t.sp.val = s.sp.val - 1 ∧ t = { s with sp := t.sp }) ∨
    (s.sp.val = 0 ∧ s.pop = .error .stackUnderflow) := by
  by_cases h : s.sp.val = 0
  · exact .inr ⟨h, dif_pos h⟩
  · exact .inl ⟨by omega, _, dif_neg h, rfl, rfl⟩

/-! ### Keys -/

theorem keyIndex_of_le {b : Byte} (h : b.toNat ≤ 15) : keyIndex b = .ok ⟨b.toNat, by omega⟩ :=
  dif_pos h

theorem keyIndex_of_gt {b : Byte} (h : 15 < b.toNat) :
    keyIndex b = .error (.outOfBounds .key b.toNat) := dif_neg (by omega)

theorem find?_finRange_eq_some {n : Nat} {p : Fin n → Bool} {k : Fin n} :
    (List.finRange n).find? p = some k ↔ p k = true ∧ ∀ j < k, p j = false := by
  rw [List.find?_eq_some_iff_getElem]
  constructor
  · rintro ⟨hk, i, hi, rfl, hlt⟩
    refine ⟨hk, fun j hj => ?_⟩
    have := hlt j.val (by simpa [Fin.lt_def] using hj)
    simpa using this
  · rintro ⟨hk, hlt⟩
    refine ⟨hk, k.val, by simp, by simp, fun j hj => ?_⟩
    have := hlt ⟨j, by omega⟩ (by simpa [Fin.lt_def] using hj)
    simpa using this

/-- The first key is the least pressed one. -/
theorem State.firstKey_eq_some {s : State} {k : Key} :
    s.firstKey = some k ↔ s.key[k.val] = true ∧ ∀ j < k, s.key[j.val] = false :=
  find?_finRange_eq_some

theorem State.firstKey_eq_none {s : State} :
    s.firstKey = none ↔ ∀ k : Key, s.key[k.val] = false := by
  simp [State.firstKey]

/-! ### The framebuffer -/

theorem fbPixel_of_off {fb : Framebuffer} {px py : Nat} (h : ¬(px < 64 ∧ py < 32)) :
    fbPixel fb px py = false := dif_neg h

/-- Framebuffers that show the same pixels are equal. -/
theorem framebuffer_ext {f g : Framebuffer} (h : ∀ px py, fbPixel f px py = fbPixel g px py) :
    f = g := by
  apply Vector.ext
  intro p hp
  have h0 := h (p % 64) (p / 64)
  have h1 : p % 64 < 64 ∧ p / 64 < 32 := by omega
  have h2 : p % 64 + p / 64 * 64 = p := by omega
  simpa [fbPixel, h1, h2] using h0

/-- Everything `FbFlip` can do. -/
theorem fbFlip_cases (fb : Framebuffer) (x y : Nat) :
    ((x ≤ 63 ∧ y ≤ 31) ∧ ∃ fb', fbFlip fb x y = .ok (fb', fbPixel fb x y) ∧
      ∀ px py, fbPixel fb' px py = (fbPixel fb px py ^^ decide (px = x ∧ py = y))) ∨
    (¬(x ≤ 63 ∧ y ≤ 31) ∧ fbFlip fb x y = .error (.outOfBounds .pixel (x + y * 64))) := by
  by_cases h : x ≤ 63 ∧ y ≤ 31
  · refine .inl ⟨h, fb.set (x + y * 64) (!fbPixel fb x y) (by omega), ?_, fun px py => ?_⟩
    · simp [fbFlip, h, fbPixel, Nat.lt_succ_of_le h.1, Nat.lt_succ_of_le h.2]
    · by_cases hp : px < 64 ∧ py < 32
      · by_cases he : px = x ∧ py = y
        · obtain ⟨rfl, rfl⟩ := he
          simp [fbPixel, hp]
        · have hne : x + y * 64 ≠ px + py * 64 := by omega
          simp [fbPixel, hp, he, hne]
      · rw [fbPixel_of_off hp, fbPixel_of_off hp]
        have : ¬(px = x ∧ py = y) := by omega
        simp [this]
  · exact .inr ⟨h, dif_neg h⟩

/-- A row whose set bits all lie on the grid: each is XORed onto its pixel, and `collide` tells
whether one of those pixels held 1. -/
theorem drawRow_of_fits : ∀ (bits : List Bool) (fb : Framebuffer) (c : Bool) (x y : Nat),
    (∀ k, bits.getD k false = true → x + k ≤ 63 ∧ y ≤ 31) →
    ∃ fb' c', drawRow fb c x y bits = .ok (fb', c') ∧
      (∀ px py, fbPixel fb' px py = (fbPixel fb px py ^^
        (decide (py = y ∧ x ≤ px) && bits.getD (px - x) false))) ∧
      (c' = true ↔ c = true ∨ ∃ k, bits.getD k false = true ∧ fbPixel fb (x + k) y = true)
  | [], fb, c, x, y, _ => ⟨fb, c, rfl, by simp, by simp⟩
  | false :: bits, fb, c, x, y, h => by
    obtain ⟨fb', c', h1, h2, h3⟩ := drawRow_of_fits bits fb c (x + 1) y
      (fun k hk => by have := h (k + 1) (by simpa using hk); omega)
    refine ⟨fb', c', h1, fun px py => ?_, h3.trans (or_congr_right ?_)⟩
    · rw [h2]
      congr 1
      by_cases hy : py = y
      · rcases Nat.lt_trichotomy px x with hx | rfl | hx
        · simp [show ¬ x ≤ px by omega, show ¬ x + 1 ≤ px by omega]
        · simp
        · have : px - x = (px - (x + 1)) + 1 := by omega
          simp [this, hy, show x ≤ px by omega, show x + 1 ≤ px by omega]
      · simp [hy]
    · constructor
      · rintro ⟨k, hk, hp⟩
        exact ⟨k + 1, by simpa using hk, by rwa [Nat.add_comm k 1, ← Nat.add_assoc]⟩
      · rintro ⟨k, hk, hp⟩
        cases k with
        | zero => simp at hk
        | succ k => exact ⟨k, by simpa using hk, by rwa [Nat.add_assoc, Nat.add_comm 1]⟩
  | true :: bits, fb, c, x, y, h => by
    have h0 := h 0 (by simp)
    rcases fbFlip_cases fb x y with ⟨_, fb1, hf, hp1⟩ | ⟨hn, _⟩
    · obtain ⟨fb', c', h1, h2, h3⟩ := drawRow_of_fits bits fb1 (c || fbPixel fb x y) (x + 1) y
        (fun k hk => by have := h (k + 1) (by simpa using hk); omega)
      refine ⟨fb', c', by rw [drawRow, hf]; exact h1, fun px py => ?_, h3.trans ?_⟩
      · rw [h2, hp1, Bool.xor_assoc]
        congr 1
        by_cases hy : py = y
        · rcases Nat.lt_trichotomy px x with hx | rfl | hx
          · simp [show ¬ x ≤ px by omega, show ¬ x + 1 ≤ px by omega, show px ≠ x by omega]
          · simp [hy]
          · have : px - x = (px - (x + 1)) + 1 := by omega
            simp [this, hy, show x ≤ px by omega, show x + 1 ≤ px by omega, show px ≠ x by omega]
        · simp [hy]
      · simp only [Bool.or_eq_true, or_assoc]
        refine or_congr_right ?_
        constructor
        · rintro (hp | ⟨k, hk, hp⟩)
          · exact ⟨0, by simp, hp⟩
          · rw [hp1, Nat.add_assoc, Nat.add_comm 1] at hp
            exact ⟨k + 1, by simpa using hk, by simpa using hp⟩
        · rintro ⟨k, hk, hp⟩
          cases k with
          | zero => exact .inl hp
          | succ k =>
            refine .inr ⟨k, by simpa using hk, ?_⟩
            rw [hp1, Nat.add_assoc, Nat.add_comm 1]
            simpa using hp
    · omega

/-- A row whose first set bit off the grid is bit `k`: that pixel is reported. -/
theorem drawRow_of_off : ∀ (bits : List Bool) (fb : Framebuffer) (c : Bool) (x y k : Nat),
    (∀ j < k, bits.getD j false = true → x + j ≤ 63 ∧ y ≤ 31) → bits.getD k false = true →
    ¬(x + k ≤ 63 ∧ y ≤ 31) →
    drawRow fb c x y bits = .error (.outOfBounds .pixel (x + k + y * 64))
  | [], fb, c, x, y, k, _, hk, _ => by simp at hk
  | false :: bits, fb, c, x, y, 0, _, hk, _ => by simp at hk
  | false :: bits, fb, c, x, y, k + 1, hb, hk, ho => by
    rw [drawRow, drawRow_of_off bits fb c (x + 1) y k
      (fun j hj h => by have := hb (j + 1) (by omega) (by simpa using h); omega)
      (by simpa using hk) (by omega), Nat.add_assoc x, Nat.add_comm 1]
  | true :: bits, fb, c, x, y, 0, _, _, ho => by
    rcases fbFlip_cases fb x y with ⟨h, _⟩ | ⟨_, hf⟩
    · exact absurd h ho
    · rw [drawRow, hf]; rfl
  | true :: bits, fb, c, x, y, k + 1, hb, hk, ho => by
    have h0 := hb 0 (by omega) (by simp)
    rcases fbFlip_cases fb x y with ⟨_, fb1, hf, _⟩ | ⟨h, _⟩
    · rw [drawRow, hf]
      show drawRow fb1 (c || fbPixel fb x y) (x + 1) y bits = _
      rw [drawRow_of_off bits fb1 _ (x + 1) y k
        (fun j hj h => by have := hb (j + 1) (by omega) (by simpa using h); omega)
        (by simpa using hk) (by omega), Nat.add_assoc x, Nat.add_comm 1]
    · exact absurd h0 h

/-- The bits of a sprite byte, leftmost first: bit 7 is column 0 (R212). -/
theorem spriteBits_getD (b : Byte) (k : Nat) :
    (spriteBits b).getD k false = (decide (k < 8) && b.getLsbD (7 - k)) := by
  match k with
  | 0 | 1 | 2 | 3 | 4 | 5 | 6 | 7 => simp [spriteBits]
  | k + 8 => simp [spriteBits]

/-- One of the set bits of the `n` rows from `a` up, drawn at `(x, y)`, lands on the pixel. -/
def spriteCovers (m : Memory) (a x y n px py : Nat) : Prop :=
  ∃ r c, r < n ∧ c < 8 ∧ (m.get (a + r)).getLsbD (7 - c) = true ∧ px = x + c ∧ py = y + r

theorem spriteCovers_succ {m : Memory} {a x y n px py : Nat} :
    spriteCovers m a x y (n + 1) px py ↔
      (py = y ∧ x ≤ px ∧ px - x < 8 ∧ (m.get a).getLsbD (7 - (px - x)) = true) ∨
        spriteCovers m (a + 1) x (y + 1) n px py := by
  constructor
  · rintro ⟨r, c, hr, hc, hb, rfl, rfl⟩
    cases r with
    | zero => exact .inl ⟨by omega, by omega, by omega, by simpa using hb⟩
    | succ r =>
      refine .inr ⟨r, c, by omega, hc, ?_, rfl, by omega⟩
      rwa [Nat.add_assoc, Nat.add_comm 1]
  · rintro (⟨rfl, hx, hc, hb⟩ | ⟨r, c, hr, hc, hb, rfl, rfl⟩)
    · exact ⟨0, px - x, by omega, hc, by simpa using hb, by omega, by omega⟩
    · refine ⟨r + 1, c, by omega, hc, ?_, rfl, by omega⟩
      rwa [Nat.add_comm r 1, ← Nat.add_assoc]

/-- The rows that can be read and whose set bits lie on the grid. -/
def spriteRowFits (m : Memory) (a x y r c : Nat) : Prop :=
  a + r ≤ 0xFFF ∧ ∀ k < c, (m.get (a + r)).getLsbD (7 - k) = true → x + k ≤ 63 ∧ y + r ≤ 31

/-- A row that can be read and drawn. -/
theorem drawSprite_succ {m : Memory} {n a x y : Nat} {fb fb' : Framebuffer} {c c' : Bool}
    (ha : a ≤ 0xFFF) (hr : drawRow fb c x y (spriteBits (m.get a)) = .ok (fb', c')) :
    drawSprite m a x y (n + 1) fb c = drawSprite m (a + 1) x (y + 1) n fb' c' := by
  simp [drawSprite, memRead_of_le ha, hr]

/-- A row that can be read and not drawn. -/
theorem drawSprite_succ_error {m : Memory} {n a x y : Nat} {fb : Framebuffer} {c : Bool}
    {e : FatalKind} (ha : a ≤ 0xFFF)
    (hr : drawRow fb c x y (spriteBits (m.get a)) = .error e) :
    drawSprite m a x y (n + 1) fb c = .error e := by
  simp [drawSprite, memRead_of_le ha, hr]

/-- A sprite that fits: the covered pixels are flipped, the others kept, and `collide` tells whether a
covered pixel held 1 (R211, R214). -/
theorem drawSprite_of_fits (m : Memory) : ∀ (n a x y : Nat) (fb : Framebuffer) (c : Bool),
    (∀ r < n, spriteRowFits m a x y r 8) →
    ∃ fb' c', drawSprite m a x y n fb c = .ok (fb', c') ∧
      (∀ px py, (spriteCovers m a x y n px py → fbPixel fb' px py = !fbPixel fb px py) ∧
        (¬ spriteCovers m a x y n px py → fbPixel fb' px py = fbPixel fb px py)) ∧
      (c' = true ↔ c = true ∨ ∃ px py, spriteCovers m a x y n px py ∧ fbPixel fb px py = true)
  | 0, a, x, y, fb, c, _ => ⟨fb, c, rfl, by simp [spriteCovers], by simp [spriteCovers]⟩
  | n + 1, a, x, y, fb, c, h => by
    have h0 := h 0 (by omega)
    obtain ⟨fb1, c1, hr, hp, hc⟩ := drawRow_of_fits (spriteBits (m.get a)) fb c x y (fun k hk => by
      rw [spriteBits_getD] at hk
      simp only [Bool.and_eq_true, decide_eq_true_eq] at hk
      simpa using h0.2 k hk.1 (by simpa using hk.2))
    obtain ⟨fb', c', hs, hp', hc'⟩ := drawSprite_of_fits m n (a + 1) x (y + 1) fb1 c1
      (fun r hr => by
        have := h (r + 1) (by omega)
        unfold spriteRowFits at this ⊢
        rw [show a + 1 + r = a + (r + 1) by omega, show y + 1 + r = y + (r + 1) by omega]
        exact this)
    have hrow : ∀ px py, (decide (py = y ∧ x ≤ px) && (spriteBits (m.get a)).getD (px - x) false)
        = true ↔ (py = y ∧ x ≤ px ∧ px - x < 8 ∧ (m.get a).getLsbD (7 - (px - x)) = true) := by
      intro px py
      rw [spriteBits_getD]
      simp [and_assoc]
    have hlow : ∀ px py, spriteCovers m (a + 1) x (y + 1) n px py → py ≠ y := by
      rintro px py ⟨r, k, _, _, _, _, rfl⟩
      omega
    refine ⟨fb', c', ?_, fun px py => ⟨fun hcov => ?_, fun hncov => ?_⟩, ?_⟩
    · rw [drawSprite_succ (by simpa using h0.1) hr]
      exact hs
    · rw [spriteCovers_succ] at hcov
      rcases hcov with hrw | hrest
      · have hn : ¬ spriteCovers m (a + 1) x (y + 1) n px py := fun hh => hlow px py hh hrw.1
        rw [(hp' px py).2 hn, hp, (hrow px py).mpr hrw]
        simp
      · rw [(hp' px py).1 hrest, hp]
        simp [hlow px py hrest]
    · rw [spriteCovers_succ, not_or] at hncov
      rw [(hp' px py).2 hncov.2, hp, Bool.eq_false_iff.mpr (fun hh => hncov.1 ((hrow px py).mp hh))]
      simp
    · rw [hc', hc, or_assoc]
      refine or_congr_right ?_
      constructor
      · rintro (⟨k, hk, hq⟩ | ⟨px, py, hcov, hq⟩)
        · rw [spriteBits_getD] at hk
          simp only [Bool.and_eq_true, decide_eq_true_eq] at hk
          exact ⟨x + k, y, spriteCovers_succ.mpr (.inl ⟨rfl, by omega, by omega,
            by simpa using hk.2⟩), hq⟩
        · refine ⟨px, py, spriteCovers_succ.mpr (.inr hcov), ?_⟩
          rw [hp] at hq
          simpa [hlow px py hcov] using hq
      · rintro ⟨px, py, hcov, hq⟩
        rcases spriteCovers_succ.mp hcov with ⟨rfl, hx, hlt, hb⟩ | hrest
        · refine .inl ⟨px - x, ?_, by rwa [show x + (px - x) = px by omega]⟩
          rw [spriteBits_getD]
          simp [hlt, hb]
        · refine .inr ⟨px, py, hrest, ?_⟩
          rw [hp]
          simpa [hlow px py hrest] using hq

/-- One row of a sprite that fits is drawn, and the rest goes on from some framebuffer. -/
theorem drawSprite_succ_of_fits {m : Memory} {n a x y : Nat} (fb : Framebuffer) (c : Bool)
    (h0 : spriteRowFits m a x y 0 8) :
    ∃ fb' c', drawSprite m a x y (n + 1) fb c = drawSprite m (a + 1) x (y + 1) n fb' c' := by
  obtain ⟨fb1, c1, hr, _, _⟩ := drawRow_of_fits (spriteBits (m.get a)) fb c x y (fun k hk => by
    rw [spriteBits_getD] at hk
    simp only [Bool.and_eq_true, decide_eq_true_eq] at hk
    simpa using h0.2 k hk.1 (by simpa using hk.2))
  exact ⟨fb1, c1, drawSprite_succ (by simpa using h0.1) hr⟩

theorem spriteRowFits_shift {m : Memory} {a x y r c : Nat} :
    spriteRowFits m (a + 1) x (y + 1) r c ↔ spriteRowFits m a x y (r + 1) c := by
  unfold spriteRowFits
  rw [show a + 1 + r = a + (r + 1) by omega, show y + 1 + r = y + (r + 1) by omega]

/-- The rows before row `r` fit, and row `r` cannot be read: its address is reported (R66, R257). -/
theorem drawSprite_of_unreadable (m : Memory) : ∀ (n a x y r : Nat) (fb : Framebuffer) (c : Bool),
    r < n → (∀ j < r, spriteRowFits m a x y j 8) → 0xFFF < a + r →
    drawSprite m a x y n fb c = .error (.outOfBounds .read (a + r))
  | 0, _, _, _, _, _, _, h, _, _ => absurd h (by omega)
  | n + 1, a, x, y, 0, fb, c, _, _, h => by rw [drawSprite, memRead_of_gt (by simpa using h)]; rfl
  | n + 1, a, x, y, r + 1, fb, c, hr, hf, h => by
    obtain ⟨fb', c', he⟩ := drawSprite_succ_of_fits (n := n) fb c (hf 0 (by omega))
    rw [he, drawSprite_of_unreadable m n (a + 1) x (y + 1) r fb' c' (by omega)
      (fun j hj => spriteRowFits_shift.mpr (hf (j + 1) (by omega))) (by omega),
      show a + 1 + r = a + (r + 1) by omega]

/-- The rows before row `r` fit, row `r` can be read and its bits before bit `k` fit, and bit `k` is
set off the grid: its pixel is reported (R213, R257). -/
theorem drawSprite_of_off (m : Memory) : ∀ (n a x y r k : Nat) (fb : Framebuffer) (c : Bool),
    r < n → (∀ j < r, spriteRowFits m a x y j 8) → spriteRowFits m a x y r k → k < 8 →
    (m.get (a + r)).getLsbD (7 - k) = true → ¬(x + k ≤ 63 ∧ y + r ≤ 31) →
    drawSprite m a x y n fb c = .error (.outOfBounds .pixel (x + k + (y + r) * 64))
  | 0, _, _, _, _, _, _, _, h, _, _, _, _, _ => absurd h (by omega)
  | n + 1, a, x, y, 0, k, fb, c, _, _, hrow, hk, hb, ho => by
    rw [drawSprite_succ_error (by simpa using hrow.1)
      (drawRow_of_off (spriteBits (m.get a)) fb c x y k ?_ ?_ ?_)]
    · simp
    · intro j hj h
      rw [spriteBits_getD] at h
      simp only [Bool.and_eq_true] at h
      simpa using hrow.2 j hj (by simpa using h.2)
    · rw [spriteBits_getD]
      simpa [hk] using hb
    · simpa using ho
  | n + 1, a, x, y, r + 1, k, fb, c, hr, hf, hrow, hk, hb, ho => by
    obtain ⟨fb', c', he⟩ := drawSprite_succ_of_fits (n := n) fb c (hf 0 (by omega))
    rw [he, drawSprite_of_off m n (a + 1) x (y + 1) r k fb' c' (by omega)
      (fun j hj => spriteRowFits_shift.mpr (hf (j + 1) (by omega)))
      (spriteRowFits_shift.mpr hrow) hk (by rwa [show a + 1 + r = a + (r + 1) by omega])
      (by omega), show y + 1 + r = y + (r + 1) by omega]

/-! ### Fatal errors -/

theorem fetchedWord_of_ok {s : State} {w : Word} (h : fetchWord s = .ok w) :
    fetchedWord s = some w := by
  simp [fetchedWord, h]

/-- Everything the instruction fetch can do. -/
theorem fetchWord_cases (s : State) :
    (s.pc.toNat + 1 ≤ 0xFFF ∧
      fetchWord s = .ok (wordOfBytes (s.mem.get s.pc.toNat) (s.mem.get (s.pc.toNat + 1)))) ∨
    (0xFFF < s.pc.toNat + 1 ∧
      fetchWord s = .error (.outOfBounds .fetch (s.pc.toNat + 1)) ∧ fetchedWord s = none) := by
  by_cases h : 0xFFF < s.pc.toNat + 1
  · have : fetchWord s = .error (.outOfBounds .fetch (s.pc.toNat + 1)) := if_pos h
    exact .inr ⟨h, this, by simp [fetchedWord, this]⟩
  · exact .inl ⟨by omega, if_neg h⟩

/-- An instruction that ends in `commit` either makes its writes or takes the fatal error. -/
theorem commit_next {s t : State} {r : Except FatalKind State} (h : commit s r = .next t) :
    r = .ok t ∨ ∃ e, r = .error e ∧ t = { s with fault := some (fatalRecord e s) } := by
  cases r with
  | ok u => cases h; exact .inl rfl
  | error e => cases h; exact .inr ⟨e, rfl, rfl⟩

end Sys2Proof.Machine
end

