-- ==== Sys2Proof/Laws/PerInstr.lean ====
section
/-! SUPPORT. One fact about every instruction, one lemma for each constructor: its word is a word of its
row of R94. -/

namespace Sys2Proof.Laws.FitsRow

/-- The word of a well-formed instruction, under its row's mask, is the row's pattern (R94). -/
def Statement (i : Instr) : Prop :=
  i.wf = true → encode i &&& i.row.mask = i.row.pattern

/-- A word of a 12-bit operand is its family under the mask 0xF000. -/
theorem wordNNN_row {f : Nat} {nnn : Word} (h : nnn.toNat ≤ 0xFFF) :
    wordNNN f nnn &&& (0xF000 : Word) = trunc16 (f * 4096) := by
  apply BitVec.eq_of_toNat_eq
  rw [and_mask_F000]
  simp only [wordNNN, BitVec.toNat_ofNat]
  omega

/-- A word of a register and a byte is its family under the mask 0xF000. -/
theorem wordXNN_row {f : Nat} (x : Reg) (nn : Byte) :
    wordXNN f x nn &&& (0xF000 : Word) = trunc16 (f * 4096) := by
  apply BitVec.eq_of_toNat_eq
  rw [and_mask_F000]
  simp only [wordXNN, BitVec.toNat_ofNat]
  omega

/-- A word of one register is its family and low byte under the mask 0xF0FF. -/
theorem wordXNN_lowRow {f : Nat} (x : Reg) (nn : Byte) :
    wordXNN f x nn &&& (0xF0FF : Word) = trunc16 (f * 4096 + nn.toNat) := by
  apply BitVec.eq_of_toNat_eq
  rw [and_mask_F0FF]
  simp only [wordXNN, BitVec.toNat_ofNat]
  omega

/-- A word of two registers is its family and low nibble under the mask 0xF00F. -/
theorem wordXYN_row {f n : Nat} (x y : Reg) (hn : n ≤ 15) :
    wordXYN f x y n &&& (0xF00F : Word) = trunc16 (f * 4096 + n) := by
  apply BitVec.eq_of_toNat_eq
  rw [and_mask_F00F]
  simp only [wordXYN, BitVec.toNat_ofNat]
  omega

/-- A word of two registers and a count is its family under the mask 0xF000. -/
theorem wordXYN_highRow {f n : Nat} (x y : Reg) (hn : n ≤ 15) :
    wordXYN f x y n &&& (0xF000 : Word) = trunc16 (f * 4096) := by
  apply BitVec.eq_of_toNat_eq
  rw [and_mask_F000]
  simp only [wordXYN, BitVec.toNat_ofNat]
  omega

theorem cls : Statement .cls := fun _ => by decide

theorem ret : Statement .ret := fun _ => by decide

theorem jp (nnn : Word) : Statement (.jp nnn) := fun h =>
  wordNNN_row (of_decide_eq_true h)

theorem call (nnn : Word) : Statement (.call nnn) := fun h =>
  wordNNN_row (of_decide_eq_true h)

theorem seImm (x : Reg) (nn : Byte) : Statement (.seImm x nn) := fun _ =>
  wordXNN_row x nn

theorem sneImm (x : Reg) (nn : Byte) : Statement (.sneImm x nn) := fun _ =>
  wordXNN_row x nn

theorem seReg (x y : Reg) : Statement (.seReg x y) := fun _ =>
  wordXYN_row x y (by decide)

theorem ldImm (x : Reg) (nn : Byte) : Statement (.ldImm x nn) := fun _ =>
  wordXNN_row x nn

theorem addImm (x : Reg) (nn : Byte) : Statement (.addImm x nn) := fun _ =>
  wordXNN_row x nn

theorem ldReg (x y : Reg) : Statement (.ldReg x y) := fun _ =>
  wordXYN_row x y (by decide)

theorem orReg (x y : Reg) : Statement (.orReg x y) := fun _ =>
  wordXYN_row x y (by decide)

theorem andReg (x y : Reg) : Statement (.andReg x y) := fun _ =>
  wordXYN_row x y (by decide)

theorem xorReg (x y : Reg) : Statement (.xorReg x y) := fun _ =>
  wordXYN_row x y (by decide)

theorem addReg (x y : Reg) : Statement (.addReg x y) := fun _ =>
  wordXYN_row x y (by decide)

theorem subReg (x y : Reg) : Statement (.subReg x y) := fun _ =>
  wordXYN_row x y (by decide)

theorem shr (x y : Reg) : Statement (.shr x y) := fun _ =>
  wordXYN_row x y (by decide)

theorem subn (x y : Reg) : Statement (.subn x y) := fun _ =>
  wordXYN_row x y (by decide)

theorem shl (x y : Reg) : Statement (.shl x y) := fun _ =>
  wordXYN_row x y (by decide)

theorem sneReg (x y : Reg) : Statement (.sneReg x y) := fun _ =>
  wordXYN_row x y (by decide)

theorem ldI (nnn : Word) : Statement (.ldI nnn) := fun h =>
  wordNNN_row (of_decide_eq_true h)

theorem jpV0 (nnn : Word) : Statement (.jpV0 nnn) := fun h =>
  wordNNN_row (of_decide_eq_true h)

theorem rnd (x : Reg) (nn : Byte) : Statement (.rnd x nn) := fun _ =>
  wordXNN_row x nn

theorem drw (x y : Reg) (n : Nat) : Statement (.drw x y n) := fun h =>
  wordXYN_highRow x y (of_decide_eq_true h)

theorem skp (x : Reg) : Statement (.skp x) := fun _ =>
  wordXNN_lowRow x _

theorem sknp (x : Reg) : Statement (.sknp x) := fun _ =>
  wordXNN_lowRow x _

theorem ldVxDt (x : Reg) : Statement (.ldVxDt x) := fun _ =>
  wordXNN_lowRow x _

theorem ldVxK (x : Reg) : Statement (.ldVxK x) := fun _ =>
  wordXNN_lowRow x _

theorem ldDtVx (x : Reg) : Statement (.ldDtVx x) := fun _ =>
  wordXNN_lowRow x _

theorem ldStVx (x : Reg) : Statement (.ldStVx x) := fun _ =>
  wordXNN_lowRow x _

theorem addI (x : Reg) : Statement (.addI x) := fun _ =>
  wordXNN_lowRow x _

theorem ldF (x : Reg) : Statement (.ldF x) := fun _ =>
  wordXNN_lowRow x _

theorem ldB (x : Reg) : Statement (.ldB x) := fun _ =>
  wordXNN_lowRow x _

theorem ldMemVx (x : Reg) : Statement (.ldMemVx x) := fun _ =>
  wordXNN_lowRow x _

theorem ldVxMem (x : Reg) : Statement (.ldVxMem x) := fun _ =>
  wordXNN_lowRow x _

end Sys2Proof.Laws.FitsRow
end

