-- ==== Sys2Proof/Laws/Step.lean ====
section
/-! SUPPORT. What one step can do, said once: every instruction answers a next state, and a next state
of `step` comes from a fatal error or from an executed instruction. -/

namespace Sys2Proof.Machine

/-! ### Outcomes -/

@[simp] theorem mapNext_next (f : State → State) (t : State) :
    mapNext f (.next t) = .next (f t) := rfl

@[simp] theorem commit_ok (s t : State) : commit s (.ok t) = .next t := rfl

@[simp] theorem commit_error (s : State) (e : FatalKind) : commit s (.error e) = raise e s := rfl

/-- Taking a fatal error, written with the record. -/
theorem raise_eq (e : FatalKind) (s : State) :
    raise e s = .next (s.latched e (fetchedWord s)) := rfl

/-- Every instruction answers a next state: none faults or is refused. -/
theorem exec_next (i : Instr) (s : State) : ∃ t, exec i s = .next t := by
  have hc : ∀ r : Except FatalKind State, ∃ t, commit s r = .next t := by
    rintro (e | t)
    · exact ⟨_, rfl⟩
    · exact ⟨_, rfl⟩
  cases i
  case ret | call | skp | sknp | ldB | ldMemVx | ldVxMem | drw => exact hc _
  case ldVxK =>
    show ∃ t, execLdVxK _ s = .next t
    unfold execLdVxK
    split <;> exact ⟨_, rfl⟩
  all_goals exact ⟨_, rfl⟩

/-- Everything an instruction can do to the fault latch: it takes a fatal error in the state it began
in, or leaves the latch as it was. -/
theorem exec_cases {i : Instr} {s t : State} (h : exec i s = .next t) :
    (∃ e, t = s.latched e (fetchedWord s)) ∨ t.fault = s.fault := by
  have hc : ∀ {r : Except FatalKind State}, commit s r = .next t →
      (∀ u, r = .ok u → u.fault = s.fault) →
      (∃ e, t = s.latched e (fetchedWord s)) ∨ t.fault = s.fault := by
    intro r hr hu
    rcases commit_next hr with h | ⟨e, _, h⟩
    · exact .inr (hu t h)
    · exact .inl ⟨e, h⟩
  cases i
  case ret =>
    refine hc h (fun u hu => ?_)
    rcases s.pop_cases with ⟨_, v, h1, _, h3⟩ | ⟨_, h1⟩ <;> rw [h1] at hu <;> cases hu
    rw [h3]; rfl
  case call =>
    refine hc h (fun u hu => ?_)
    rcases s.push_cases (s.pc + 2) with ⟨_, v, h1, _, _, h3⟩ | ⟨_, h1⟩ <;> rw [h1] at hu <;>
      cases hu
    rw [h3]; rfl
  case skp | sknp | ldB | ldMemVx | ldVxMem | drw =>
    refine hc h (fun u hu => ?_)
    split at hu <;> cases hu; rfl
  case ldVxK =>
    right
    change execLdVxK _ s = _ at h
    unfold execLdVxK at h
    split at h <;> cases h <;> rfl
  all_goals
    right
    cases h
    rfl

/-! ### The step -/

theorem step_of_fault {s : State} {r : FatalRecord} (h : s.fault = some r) :
    step s = .fault (.fatalError r) := by
  simp [step, h]

/-- Everything a cycle can do. -/
theorem cycle_cases (s : State) :
    (0xFFF < s.pc.toNat + 1 ∧ fetchedWord s = none ∧
      cycle s = .next (s.latched (.outOfBounds .fetch (s.pc.toNat + 1)) none)) ∨
    (∃ w, fetchWord s = .ok w ∧ decode w = .error (.unknownOpcode w) ∧
      cycle s = .next (s.latched .unknownOpcode (some w))) ∨
    (∃ w i t, fetchWord s = .ok w ∧ decode w = .ok i ∧ exec i s = .next t ∧
      cycle s = .next (if t.fault.isSome || blocked i s then t else t.tick)) := by
  rcases fetchWord_cases s with ⟨_, hf⟩ | ⟨hpc, hf, hw⟩
  · cases hd : decode (wordOfBytes (s.mem.get s.pc.toNat) (s.mem.get (s.pc.toNat + 1))) with
    | error e =>
      have he := decode_error hd
      subst he
      refine .inr (.inl ⟨_, hf, hd, ?_⟩)
      simp only [cycle, hf, hd, raise_eq, fetchedWord_of_ok hf]
    | ok i =>
      obtain ⟨t, ht⟩ := exec_next i s
      refine .inr (.inr ⟨_, i, t, hf, hd, ht, ?_⟩)
      simp only [cycle, hf, hd, ht, finish]
      split <;> rfl
  · refine .inl ⟨hpc, hw, ?_⟩
    simp only [cycle, hf, raise_eq, hw]

/-- Everything a step that answers a next state can have done. -/
theorem step_cases {s t : State} (h : step s = .next t) :
    s.fault = none ∧
    ((0xFFF < s.pc.toNat + 1 ∧ fetchedWord s = none ∧
        t = s.latched (.outOfBounds .fetch (s.pc.toNat + 1)) none) ∨
      (∃ w, fetchWord s = .ok w ∧ decode w = .error (.unknownOpcode w) ∧
        t = s.latched .unknownOpcode (some w)) ∨
      (∃ w i u, fetchWord s = .ok w ∧ decode w = .ok i ∧ exec i s = .next u ∧
        t = if u.fault.isSome || blocked i s then u else u.tick)) := by
  cases hs : s.fault with
  | some r => rw [step_of_fault hs] at h; cases h
  | none =>
    have hc : cycle s = .next t := by simpa [step, hs] using h
    refine ⟨rfl, ?_⟩
    rcases cycle_cases s with ⟨h1, h2, h3⟩ | ⟨w, h1, h2, h3⟩ | ⟨w, i, u, h1, h2, h3, h4⟩
    · rw [h3] at hc; cases hc; exact .inl ⟨h1, h2, rfl⟩
    · rw [h3] at hc; cases hc; exact .inr (.inl ⟨w, h1, h2, rfl⟩)
    · rw [h4] at hc; cases hc; exact .inr (.inr ⟨w, i, u, h1, h2, h3, rfl⟩)

/-- A step whose word decodes runs the instruction. -/
theorem step_of_decode {s t : State} {w : Word} {i : Instr} (hs : s.fault = none)
    (hf : fetchWord s = .ok w) (hd : decode w = .ok i) (he : exec i s = .next t) :
    step s = .next (if t.fault.isSome || blocked i s then t else t.tick) := by
  simp only [step, hs, cycle, hf, hd, he, finish]
  split <;> rfl

/-! ### The timer tick -/

theorem tickDown_toNat (t : Byte) : (tickDown t).toNat = t.toNat - 1 := by
  unfold tickDown
  split
  · rename_i h; subst h; rfl
  · rename_i h
    have : t.toNat ≠ 0 := fun e => h (BitVec.eq_of_toNat_eq e)
    have := t.isLt
    rw [BitVec.toNat_sub]
    simp
    omega

/-! ### Ports -/

/-- A byte of a loaded image (R282). -/
theorem lookupCell_imageCells : ∀ (bs : List Byte) (base a : Nat),
    (lookupCell a (imageCells base bs)).getD 0 =
      if h : base ≤ a ∧ a < base + bs.length then bs[a - base]'(by omega) else 0
  | [], base, a => by simp [imageCells, lookupCell]
  | b :: bs, base, a => by
    have ih := lookupCell_imageCells bs (base + 1) a
    simp only [imageCells, List.length_cons]
    by_cases ha : a = base
    · subst ha
      rw [dif_neg (by omega)] at ih
      rw [dif_pos (by omega)]
      split
      · rename_i hb; subst hb; simpa using ih
      · simp [lookupCell]
    · have hrest : (lookupCell a (if b = 0 then imageCells (base + 1) bs
          else (base, b) :: imageCells (base + 1) bs)).getD 0 =
          (lookupCell a (imageCells (base + 1) bs)).getD 0 := by
        split
        · rfl
        · simp [lookupCell, Ne.symm ha]
      rw [hrest, ih]
      by_cases hr : base + 1 ≤ a ∧ a < base + 1 + bs.length
      · rw [dif_pos hr, dif_pos (by omega)]
        have : a - base = (a - (base + 1)) + 1 := by omega
        simp [this]
      · rw [dif_neg hr, dif_neg (by omega)]

theorem mem_imageCells : ∀ {bs : List Byte} {base : Nat} {c : Host.Cell},
    c ∈ imageCells base bs → base ≤ c.1 ∧ c.1 < base + bs.length ∧ c.2 ≠ 0
  | [], _, _, h => by simp [imageCells] at h
  | b :: bs, base, c, h => by
    simp only [imageCells] at h
    simp only [List.length_cons]
    split at h
    · have := mem_imageCells h
      exact ⟨by omega, by omega, this.2.2⟩
    · rename_i hb
      rcases List.mem_cons.mp h with rfl | h
      · exact ⟨Nat.le_refl _, by omega, hb⟩
      · have := mem_imageCells h
        exact ⟨by omega, by omega, this.2.2⟩

theorem pairwise_imageCells : ∀ (bs : List Byte) (base : Nat),
    (imageCells base bs).Pairwise (fun c d => c.1 < d.1)
  | [], _ => List.Pairwise.nil
  | b :: bs, base => by
    simp only [imageCells]
    split
    · exact pairwise_imageCells bs (base + 1)
    · refine List.pairwise_cons.mpr ⟨fun d hd => ?_, pairwise_imageCells bs (base + 1)⟩
      have := (mem_imageCells hd).1
      show base < d.1
      omega

/-- A loaded memory is in canonical form. -/
theorem wf_imageCells (glyphs : Vector Byte 80) (bs : List Byte) (h : bs.length ≤ 0xE00) :
    ({ glyphs := glyphs, cells := imageCells 0x200 bs } : Memory).wf := by
  refine ⟨pairwise_imageCells bs _, fun c hc => ?_⟩
  have hm := mem_imageCells hc
  refine ⟨by omega, by omega, ?_⟩
  rw [Memory.unlisted, dif_neg (by omega)]
  exact hm.2.2

/-! ### Placing an instruction -/

/-- What a byte reads as after the loader puts one in place. -/
theorem Memory.get_place (m : Memory) (hm : m.wf) (a b : Nat) (v : Byte) (ha : a ≤ 0xFFF) :
    (m.place a v).get b = if b = a then v else m.get b := by
  unfold Memory.place
  split
  · rename_i h
    have hl : lookupCell a m.cells = none :=
      lookupCell_of_forall_ne a m.cells (fun c hc => by have := hm.2 c hc; omega)
    by_cases hb : b = a
    · subst hb
      simp [Memory.get, hl, Memory.unlisted, h]
    · rw [if_neg hb]
      unfold Memory.get Memory.unlisted
      congr 1
      split
      · exact Vector.getElem_set_ne (by omega) (by omega) (Ne.symm hb)
      · rfl
  · exact Memory.get_set m a b v

/-- The loader keeps the canonical form. -/
theorem Memory.wf_place {m : Memory} (hm : m.wf) (a : Nat) (v : Byte) : (m.place a v).wf := by
  unfold Memory.place
  split
  · refine ⟨hm.1, fun c hc => ?_⟩
    have h1 := hm.2 c hc
    refine ⟨h1.1, h1.2.1, ?_⟩
    have h2 := h1.2.2
    rw [Memory.unlisted, dif_neg (by omega)] at h2 ⊢
    exact h2
  · split
    · exact Memory.wf_set hm v (by omega) ‹_›
    · exact hm

/-- The placed word is what the next step fetches. -/
theorem fetchWord_withFetchWord (s : State) (hm : s.mem.wf) (hpc : s.pc.toNat + 1 ≤ 0xFFF)
    (nbits w : Nat) :
    fetchWord (s.withFetchWord nbits w) = .ok (trunc16 (w % 2 ^ nbits)) := by
  have hg : ∀ b, (s.withFetchWord nbits w).mem.get b =
      if b = s.pc.toNat + 1 then lowByte (trunc16 (w % 2 ^ nbits))
      else if b = s.pc.toNat then highByte (trunc16 (w % 2 ^ nbits)) else s.mem.get b := by
    intro b
    show ((s.mem.place s.pc.toNat _).place (s.pc.toNat + 1) _).get b = _
    rw [Memory.get_place _ (Memory.wf_place hm _ _) _ _ _ hpc,
      Memory.get_place _ hm _ _ _ (by omega)]
  have hp : (s.withFetchWord nbits w).pc = s.pc := rfl
  unfold fetchWord
  rw [hp, if_neg (by omega), hg, hg, if_neg (by omega), if_pos rfl, if_pos rfl,
    wordOfBytes_bytes]

end Sys2Proof.Machine
end

