-- ==== Sys2Proof/Tests/Slice0.lean ====
section
/-! SUPPORT. Tests, each a named theorem. The expected results are the vectors of 95_test_vectors.md,
named in each test's comment, or the words of R94 written out. At the end, for every obligation with
hypotheses, a state and operands that meet them. -/

namespace Sys2Proof.Tests

open Sys2Proof Sys2Proof.Machine

/-! ### Helpers -/

/-- The start state of 95_test_vectors.md section 0: reset, an empty image, the default glyphs. -/
def start : State := State.resetWith Config.defaultGlyphs

/-- `start` with two registers set. -/
def regs (x : Reg) (a : Byte) (y : Reg) (b : Byte) : State := (start.setReg x a).setReg y b

/-- A state with keys pressed. -/
def pressing (ks : List Key) (s : State) : State := ks.foldl (fun t k => t.setKey k true) s

/-- A state with bytes of memory from an address up. -/
def bytesAt (a : Nat) (bs : List Byte) (s : State) : State :=
  match storeBytes s.mem a bs with
  | .ok m => s.setMem m
  | .error _ => s

/-- A state with a pixel set. -/
def lit (p : Fin 2048) (s : State) : State := { s with fb := s.fb.set p.val true }

/-- What is seen after one step that runs the word `w`. -/
def after {α : Type} (w : Nat) (s : State) (see : State → α) : Option α :=
  match step (s.withFetchWord 16 w) with
  | .next t => some (see t)
  | _ => none

/-- The record a step that runs the word `w` leaves in the latch, and PC. -/
def recordAfter (w : Nat) (s : State) : Option (Option FatalRecord × Word) :=
  after w s (fun t => (t.fault, t.pc))

/-! ### Well-formedness: operands a word cannot hold are refused (R92) -/

theorem test_wf_refuses_wide_jp : (Instr.jp 0x1000).wf = false := by decide

theorem test_wf_refuses_wide_call : (Instr.call 0x1000).wf = false := by decide

theorem test_wf_refuses_wide_ldI : (Instr.ldI 0xFFFF).wf = false := by decide

theorem test_wf_refuses_wide_jpV0 : (Instr.jpV0 0x1000).wf = false := by decide

theorem test_wf_refuses_tall_drw : (Instr.drw 0 0 16).wf = false := by decide

theorem test_wf_accepts_bounds :
    (Instr.jp 0xFFF).wf = true ∧ (Instr.drw 15 15 15).wf = true := by decide

/-! ### Decoding: words written out bit by bit from R91 and R94 -/

theorem test_decode_family_0_1_2 :
    decode 0b0000000011100000 = .ok .cls ∧ decode 0b0000000011101110 = .ok .ret ∧
    decode 0b0001001000110100 = .ok (.jp 0x234) ∧
    decode 0b0010001000010000 = .ok (.call 0x210) := by decide

theorem test_decode_family_3_to_7 :
    decode 0b0011001101000010 = .ok (.seImm 3 0x42) ∧
    decode 0b0100001101000010 = .ok (.sneImm 3 0x42) ∧
    decode 0b0101000100100000 = .ok (.seReg 1 2) ∧
    decode 0b0110010110101011 = .ok (.ldImm 5 0xAB) ∧
    decode 0b0111001000100000 = .ok (.addImm 2 0x20) := by decide

theorem test_decode_family_8 :
    decode 0b1000000100110000 = .ok (.ldReg 1 3) ∧ decode 0b1000000100100001 = .ok (.orReg 1 2) ∧
    decode 0b1000000100100010 = .ok (.andReg 1 2) ∧ decode 0b1000000100100011 = .ok (.xorReg 1 2) ∧
    decode 0b1000000100100100 = .ok (.addReg 1 2) ∧ decode 0b1000000100100101 = .ok (.subReg 1 2) ∧
    decode 0b1000010001010110 = .ok (.shr 4 5) ∧ decode 0b1000000100100111 = .ok (.subn 1 2) ∧
    decode 0b1000010001011110 = .ok (.shl 4 5) := by decide

theorem test_decode_family_9_to_D :
    decode 0b1001000100100000 = .ok (.sneReg 1 2) ∧ decode 0b1010001100000000 = .ok (.ldI 0x300) ∧
    decode 0b1011000100100011 = .ok (.jpV0 0x123) ∧ decode 0b1100000000001111 = .ok (.rnd 0 0x0F) ∧
    decode 0b1101000100100101 = .ok (.drw 1 2 5) := by decide

theorem test_decode_family_E_F :
    decode 0b1110010110011110 = .ok (.skp 5) ∧ decode 0b1110010110100001 = .ok (.sknp 5) ∧
    decode 0b1111000100000111 = .ok (.ldVxDt 1) ∧ decode 0b1111001000001010 = .ok (.ldVxK 2) ∧
    decode 0b1111000000010101 = .ok (.ldDtVx 0) ∧ decode 0b1111001100011000 = .ok (.ldStVx 3) ∧
    decode 0b1111001000011110 = .ok (.addI 2) := by decide

theorem test_decode_family_F_memory :
    decode 0b1111000000101001 = .ok (.ldF 0) ∧ decode 0b1111101000110011 = .ok (.ldB 10) ∧
    decode 0b1111001001010101 = .ok (.ldMemVx 2) ∧
    decode 0b1111111101100101 = .ok (.ldVxMem 15) := by decide

/-- Vectors C4 to C9: words of no row, one for each family that has some. -/
theorem test_decode_unknown :
    decode 0x0000 = .error (.unknownOpcode 0x0000) ∧
    decode 0x00E1 = .error (.unknownOpcode 0x00E1) ∧
    decode 0x0123 = .error (.unknownOpcode 0x0123) ∧
    decode 0x5121 = .error (.unknownOpcode 0x5121) ∧
    decode 0x8128 = .error (.unknownOpcode 0x8128) ∧
    decode 0x812F = .error (.unknownOpcode 0x812F) ∧
    decode 0x9121 = .error (.unknownOpcode 0x9121) ∧
    decode 0xE19F = .error (.unknownOpcode 0xE19F) ∧
    decode 0xF0FF = .error (.unknownOpcode 0xF0FF) ∧
    decode 0xFFFF = .error (.unknownOpcode 0xFFFF) := by decide

/-- The opcode table's bit order: bit 0 is the word's least significant bit. -/
theorem test_table_word : decodeTableWord 16 0xD125 = some (.drw 1 2 5) := by decide

/-! ### The cycle -/

/-- Vector C1. -/
theorem test_fetch_past_memory :
    recordAfter 0x6001 (start.setPc 0xFFF) =
      some (some ⟨.outOfBounds .fetch 0x1000, 0xFFF, none⟩, 0xFFF) := by decide

/-- Vector C3. -/
theorem test_fetch_at_last_word :
    after 0x6001 (start.setPc 0xFFE) (fun t => (t.reg 0, t.pc, t.fault)) =
      some (0x01, 0x1000, none) := by decide

/-- Vector C10. -/
theorem test_unknown_no_tick :
    after 0xFFFF (start.setDelay 5) (fun t => (t.fault.isSome, t.dt, t.pc)) =
      some (true, 5, 0x200) := by decide

/-- Vector C13. -/
theorem test_timers_stop_at_zero :
    after 0x6000 (start.setDelay 1) (fun t => (t.dt, t.st, t.pc)) =
      some (0, 0, 0x202) := by decide

/-- Vectors C4, R3. -/
theorem test_reset_runs_no_program :
    recordAfter 0x0000 start =
      some (some ⟨.unknownOpcode, 0x200, some 0x0000⟩, 0x200) := by decide

/-! ### Control flow and skips -/

/-- Vector F1. -/
theorem test_ret_empty :
    recordAfter 0x00EE (start.setPc 0x300) =
      some (some ⟨.stackUnderflow, 0x300, some 0x00EE⟩, 0x300) := by decide

/-- Vector F2. -/
theorem test_ret :
    after 0x00EE { start with pc := 0x300, sp := 1, stack := start.stack.set 0 0x206 } (fun t => (t.pc, t.sp, t.stack[0])) =
      some (0x206, 0, 0x206) := by decide

/-- Vector F3. -/
theorem test_jp :
    after 0x1234 start (fun t => (t.pc, t.fault)) =
      some (0x234, none) := by decide

/-- Vector F7. -/
theorem test_call_last_entry :
    after 0x2210 { start with sp := 15 } (fun t => (t.stack[15], t.sp, t.pc)) =
      some (0x202, 16, 0x210) := by decide

/-- Vector F8. -/
theorem test_call_full :
    recordAfter 0x2210 { start with sp := 16 } =
      some (some ⟨.stackOverflow, 0x200, some 0x2210⟩, 0x200) := by decide

/-- Vector F9. -/
theorem test_seImm_equal :
    after 0x3342 (start.setReg 3 0x42) (fun t => t.pc) =
      some 0x204 := by decide

/-- Vector F10. -/
theorem test_seImm_differs :
    after 0x3342 (start.setReg 3 0x41) (fun t => t.pc) =
      some 0x202 := by decide

/-- Vector F11. -/
theorem test_sneImm_equal :
    after 0x4342 (start.setReg 3 0x42) (fun t => t.pc) =
      some 0x202 := by decide

/-- Vector F12. -/
theorem test_sneImm_differs :
    after 0x4342 (start.setReg 3 0x41) (fun t => t.pc) =
      some 0x204 := by decide

/-- Vector F13. -/
theorem test_seReg_equal :
    after 0x5120 (regs 1 7 2 7) (fun t => t.pc) =
      some 0x204 := by decide

/-- Vector F14. -/
theorem test_seReg_differs :
    after 0x5120 (regs 1 7 2 8) (fun t => t.pc) =
      some 0x202 := by decide

/-- Vector F16. -/
theorem test_sneReg_differs :
    after 0x9120 (regs 1 7 2 8) (fun t => t.pc) =
      some 0x204 := by decide

/-- Vector F17. -/
theorem test_sneReg_equal :
    after 0x9120 (regs 1 7 2 7) (fun t => t.pc) =
      some 0x202 := by decide

/-- Vector F23. -/
theorem test_jpV0_uses_V0 :
    after 0xB123 (regs 0 0x02 1 0x09) (fun t => t.pc) =
      some 0x125 := by decide

/-- Vector F25. -/
theorem test_jpV0_no_wrap :
    after 0xBFFF (start.setReg 0 0xFF) (fun t => t.pc) =
      some 0x10FE := by decide

/-! ### Register loads, arithmetic, logic, shifts, random -/

/-- Vector A1. -/
theorem test_ldImm :
    after 0x65AB start (fun t => (t.reg 5, t.pc)) =
      some (0xAB, 0x202) := by decide

/-- Vector A4. -/
theorem test_addImm_wraps_no_flag :
    after 0x7101 (regs 1 0xFF 15 0x55) (fun t => (t.reg 1, t.reg vf)) =
      some (0x00, 0x55) := by decide

/-- Vector A6. -/
theorem test_ldReg :
    after 0x8130 (start.setReg 3 0x11) (fun t => (t.reg 1, t.reg 3)) =
      some (0x11, 0x11) := by decide

/-- Vector A7. -/
theorem test_orReg_keeps_vf :
    after 0x8121 ((regs 1 0x0F 2 0xF0).setReg vf 0x55) (fun t => (t.reg 1, t.reg vf)) =
      some (0xFF, 0x55) := by decide

/-- Vector A8. -/
theorem test_andReg_keeps_vf :
    after 0x8122 ((regs 1 0x3C 2 0x0F).setReg vf 0x55) (fun t => (t.reg 1, t.reg vf)) =
      some (0x0C, 0x55) := by decide

/-- Vector A9. -/
theorem test_xorReg_keeps_vf :
    after 0x8123 ((regs 1 0xFF 2 0x0F).setReg vf 0x55) (fun t => (t.reg 1, t.reg vf)) =
      some (0xF0, 0x55) := by decide

/-- Vector A12. -/
theorem test_addReg_sum_256 :
    after 0x8124 (regs 1 0x80 2 0x80) (fun t => (t.reg 1, t.reg vf)) =
      some (0x00, 1) := by decide

/-- Vector A15. -/
theorem test_addReg_into_vf :
    after 0x8F14 (regs 15 0xFF 1 0x01) (fun t => t.reg vf) =
      some 1 := by decide

/-- Vector A17. -/
theorem test_subReg_borrow :
    after 0x8125 (regs 1 0x01 2 0x02) (fun t => (t.reg 1, t.reg vf)) =
      some (0xFF, 0) := by decide

/-- Vector A18. -/
theorem test_subReg_equal :
    after 0x8125 (regs 1 0x05 2 0x05) (fun t => (t.reg 1, t.reg vf)) =
      some (0x00, 1) := by decide

/-- Vector A24. -/
theorem test_shr_ignores_y :
    after 0x8456 (regs 4 0x04 5 0xFF) (fun t => (t.reg 4, t.reg vf)) =
      some (0x02, 0) := by decide

/-- Vector A26. -/
theorem test_shr_into_vf :
    after 0x8F06 (start.setReg vf 0x03) (fun t => t.reg vf) =
      some 1 := by decide

/-- Vector A27. -/
theorem test_subn_borrow :
    after 0x8127 (regs 1 0x05 2 0x03) (fun t => (t.reg 1, t.reg vf)) =
      some (0xFE, 0) := by decide

/-- Vector A30. -/
theorem test_subn_into_vf :
    after 0x8F17 (regs 15 0x10 1 0x20) (fun t => t.reg vf) =
      some 1 := by decide

/-- Vector A31. -/
theorem test_shl_carry :
    after 0x840E (start.setReg 4 0x81) (fun t => (t.reg 4, t.reg vf)) =
      some (0x02, 1) := by decide

/-- Vector A32. -/
theorem test_shl_no_carry :
    after 0x840E (regs 4 0x40 15 1) (fun t => (t.reg 4, t.reg vf)) =
      some (0x80, 0) := by decide

/-- Vector A34. -/
theorem test_rnd_masked :
    after 0xC00F (start.supplyRnd 0xB7) (fun t => (t.reg 0, t.pc)) =
      some (0x07, 0x202) := by decide

/-- Vector A36. -/
theorem test_rnd_unmasked :
    after 0xC0FF (start.supplyRnd 0xB7) (fun t => t.reg 0) =
      some 0xB7 := by decide

/-! ### Index register and memory -/

/-- Vector M1. -/
theorem test_ldI :
    after 0xA300 start (fun t => (t.i, t.pc)) =
      some (0x300, 0x202) := by decide

/-- Vector M3. -/
theorem test_addI_no_12_bit_wrap :
    after 0xF21E ((start.setIndex 0xFFF).setReg 2 1) (fun t => (t.i, t.reg vf)) =
      some (0x1000, 0) := by decide

/-- Vector M5. -/
theorem test_addI_overflow :
    after 0xF21E ((start.setIndex 0xFFFF).setReg 2 0xFF) (fun t => (t.i, t.reg vf)) =
      some (0x00FE, 1) := by decide

/-- Vector M10. -/
theorem test_ldF_no_mask :
    after 0xF029 (start.setReg 0 0xFF) (fun t => t.i) =
      some 0x4FB := by decide

/-- Vector M16. -/
theorem test_ldB_first_writable :
    after 0xFA33 ((start.setIndex 0x050).setReg 10 0x7B) (fun t => (t.mem.get 0x050, t.mem.get 0x051, t.mem.get 0x052)) =
      some (1, 2, 3) := by decide

/-- Vector M15. -/
theorem test_ldB_in_glyphs :
    recordAfter 0xFA33 ((start.setIndex 0x04E).setReg 10 0x7B) =
      some (some ⟨.outOfBounds .glyphWrite 0x04E, 0x200, some 0xFA33⟩, 0x200) := by decide

/-- Vector M19. -/
theorem test_ldMemVx :
    after 0xF255 (((regs 0 1 1 2).setReg 2 3).setIndex 0x400) (fun t => (t.mem.get 0x400, t.mem.get 0x401, t.mem.get 0x402, t.mem.get 0x403, t.i)) =
      some (1, 2, 3, 0, 0x400) := by decide

/-- Vector C14. -/
theorem test_ldMemVx_stores_nothing :
    after 0xF155 ((regs 0 1 1 2).setIndex 0xFFF) (fun t => (t.fault, t.mem.get 0xFFF)) =
      some (some ⟨.outOfBounds .write 0x1000, 0x200, some 0xF155⟩, 0) := by decide

/-- Vector M25. -/
theorem test_ldVxMem_reads_glyphs :
    after 0xF465 start (fun t => (t.reg 0, t.reg 1, t.reg 2, t.reg 3, t.reg 4, t.i)) =
      some (0xF0, 0x90, 0x90, 0x90, 0xF0, 0) := by decide

/-- Vector M26. -/
theorem test_ldVxMem_loads_nothing :
    after 0xF165 (bytesAt 0xFFF [0x77] (start.setIndex 0xFFF)) (fun t => (t.fault, t.reg 0)) =
      some (some ⟨.outOfBounds .read 0x1000, 0x200, some 0xF165⟩, 0) := by decide

/-! ### Display -/

set_option maxRecDepth 20000 in
/-- Vector D1. -/
theorem test_cls :
    after 0x00E0 (lit 0 (lit 2047 start)) (fun t => (t.pixel 0 0, t.pixel 63 31, t.redraw, t.pc)) =
      some (false, false, true, 0x202) := by decide

set_option maxRecDepth 20000 in
/-- Vector D3, row 6. -/
theorem test_drw_glyph :
    after 0xD125 ((regs 1 10 2 3).setIndex 0x19) (fun t => ([9, 10, 11, 12, 13, 14].map (fun x => t.pixel x 6), t.reg vf, t.redraw)) =
      some ([false, false, false, false, true, false], 0, true) := by decide

set_option maxRecDepth 20000 in
/-- Vector D7. -/
theorem test_drw_off_grid :
    after 0xD011 (bytesAt 0x300 [0xF8] ((start.setReg 0 60).setIndex 0x300)) (fun t => (t.fault, t.pixel 60 0, t.redraw)) =
      some (some ⟨.outOfBounds .pixel 0x040, 0x200, some 0xD011⟩, false, false) := by decide

/-! ### Keys and timers -/

/-- Vector K1. -/
theorem test_skp_pressed :
    after 0xE09E (pressing [5] (start.setReg 0 5)) (fun t => t.pc) =
      some 0x204 := by decide

/-- Vector K5. -/
theorem test_skp_no_such_key :
    recordAfter 0xE09E (pressing [0] (start.setReg 0 16)) =
      some (some ⟨.outOfBounds .key 0x10, 0x200, some 0xE09E⟩, 0x200) := by decide

/-- Vector K3. -/
theorem test_sknp_up :
    after 0xE0A1 (start.setReg 0 5) (fun t => t.pc) =
      some 0x204 := by decide

/-- Vector K4. -/
theorem test_sknp_pressed :
    after 0xE0A1 (pressing [5] (start.setReg 0 5)) (fun t => t.pc) =
      some 0x202 := by decide

/-- Vector K7. -/
theorem test_ldVxDt :
    after 0xF107 (start.setDelay 2) (fun t => (t.reg 1, t.dt, t.pc)) =
      some (2, 1, 0x202) := by decide

/-- Vector K14. -/
theorem test_ldVxK_least :
    after 0xF20A (pressing [3, 7] ((start.setPc 0x20A).setDelay 5)) (fun t => (t.reg 2, t.pc, t.dt)) =
      some (3, 0x20C, 4) := by decide

/-- Vector K13. -/
theorem test_ldVxK_blocked :
    after 0xF20A (((start.setPc 0x20A).setDelay 5).setSound 3) (fun t => (t.reg 2, t.pc, t.dt, t.st)) =
      some (0, 0x20A, 5, 3) := by decide

/-- Vector K9. -/
theorem test_ldDtVx :
    after 0xF015 (start.setReg 0 5) (fun t => (t.dt, t.pc)) =
      some (4, 0x202) := by decide

/-- Vector K12. -/
theorem test_ldStVx :
    after 0xF318 (start.setReg 3 0x10) (fun t => (t.st, t.pc)) =
      some (0x0F, 0x202) := by decide

/-! ### Reset -/

/-- Vector R1. -/
theorem test_load_needs_an_image :
    State.load Config.defaultGlyphs none = .error .noImage := rfl

/-- Vectors R2 and S8 on a short image: the bytes stand from 0x200 and nothing before it. -/
theorem test_load_places_image :
    ((State.loadImage Config.defaultGlyphs [0x12, 0x34]).mem.get 0x1FF,
      (State.loadImage Config.defaultGlyphs [0x12, 0x34]).mem.get 0x200,
      (State.loadImage Config.defaultGlyphs [0x12, 0x34]).mem.get 0x201) = (0, 0x12, 0x34) := by
  decide

/-- R250: the numeric codes. -/
theorem test_codes :
    [FatalKind.unknownOpcode, .stackOverflow, .stackUnderflow, .outOfBounds .fetch 0].map
      FatalKind.code = [1, 2, 3, 4] := by decide

/-! ### Witnesses: for each obligation with hypotheses, a state and operands that meet them all -/

/-- A running state with the word `w` at PC. -/
def ready (w : Nat) (s : State) : State := s.withFetchWord 16 w

/-- All keys pressed from `k` on. -/
def keysFrom (k : Nat) : State := pressing ((List.finRange 16).filter (fun j => k ≤ j.val)) start

theorem witness_DecodeOfEncodeIsTheInstruction :
    (Instr.jpV0 0xFFF).wf = true ∧ (Instr.drw 15 15 15).wf = true ∧
      (Instr.ldVxMem 15).wf = true := by decide

theorem witness_EncodeOfDecodeIsTheWord : decode 0xFF65 = .ok (.ldVxMem 15) := by decide

theorem witness_DecodeFollowsTheOpcodeMap :
    decode 0x8FFE = .ok (.shl 15 15) ∧ (Instr.shl 0 0).row ∈ opcodeMap ∧
      (0x8FFE : Word) &&& (Instr.shl 0 0).row.mask = (Instr.shl 0 0).row.pattern := by decide

theorem witness_OpcodeRowsAreDisjoint :
    (Instr.ret).row ∈ opcodeMap ∧ (0x00EE : Word) &&& Instr.ret.row.mask = Instr.ret.row.pattern := by
  decide

/-- At the last fetchable address: an instruction that completes. -/
theorem witness_StepRunsTheDecodedInstruction_completed :
    let s := ready 0x6001 (start.setPc 0xFFE)
    s.fault = none ∧ s.pc.toNat + 1 ≤ 0xFFF ∧
      decode (wordOfBytes (s.mem.get s.pc.toNat) (s.mem.get (s.pc.toNat + 1))) = .ok (.ldImm 0 1) ∧
      ∃ t, exec (.ldImm 0 1) s = .next t ∧ t.fault = none ∧ blocked (.ldImm 0 1) s = false :=
  ⟨rfl, by decide, by decide, _, rfl, rfl, rfl⟩

/-- One that raises. -/
theorem witness_StepRunsTheDecodedInstruction_raised :
    let s := ready 0x00EE start
    s.fault = none ∧ s.pc.toNat + 1 ≤ 0xFFF ∧
      decode (wordOfBytes (s.mem.get s.pc.toNat) (s.mem.get (s.pc.toNat + 1))) = .ok .ret ∧
      ∃ t, exec .ret s = .next t ∧ t.fault ≠ none :=
  ⟨rfl, by decide, by decide, _, rfl, by decide⟩

/-- One that blocks. -/
theorem witness_StepRunsTheDecodedInstruction_blocked :
    let s := ready 0xF20A start
    s.fault = none ∧ s.pc.toNat + 1 ≤ 0xFFF ∧
      decode (wordOfBytes (s.mem.get s.pc.toNat) (s.mem.get (s.pc.toNat + 1))) = .ok (.ldVxK 2) ∧
      (∃ t, exec (.ldVxK 2) s = .next t) ∧ blocked (.ldVxK 2) s = true :=
  ⟨rfl, by decide, by decide, ⟨_, rfl⟩, by decide⟩

/-- Both sides of the last fetchable address. -/
theorem witness_FetchReadsTwoBytesOrRaises :
    (start.setPc 0xFFE).pc.toNat + 1 ≤ 0xFFF ∧ 0xFFF < (start.setPc 0xFFF).pc.toNat + 1 ∧
      (start.setPc 0xFFF).fault = none := by decide

theorem witness_UnknownWordIsFatal :
    let s := ready 0x00F1 start
    s.fault = none ∧ fetchWord s = .ok 0x00F1 ∧
      ∀ r ∈ opcodeMap, (0x00F1 : Word) &&& r.mask ≠ r.pattern :=
  ⟨rfl, by rfl, by decide⟩

theorem witness_LatchedMachineReturnsItsRecord :
    (start.latched .stackOverflow (some 0x2200)).fault =
      some ⟨.stackOverflow, 0x200, some 0x2200⟩ := rfl

/-- A step whose fetch raises. -/
theorem witness_FatalErrorsArePrecise_fetch :
    let s := start.setPc 0xFFF
    (∃ t r, step s = .next t ∧ t.fault = some r) ∧ 0xFFF < s.pc.toNat + 1 :=
  ⟨⟨_, _, rfl, rfl⟩, by decide⟩

/-- A step whose word was fetched. -/
theorem witness_FatalErrorsArePrecise_fetched :
    let s := ready 0x00F1 start
    (∃ t r, step s = .next t ∧ t.fault = some r) ∧ fetchWord s = .ok 0x00F1 :=
  ⟨⟨_, _, rfl, rfl⟩, by rfl⟩

/-- A state of the invariant, other than reset, that steps: `FX55` from the first writable address. -/
theorem witness_StepKeepsTheInvariant :
    let s := ready 0xF155 ((regs 0 1 1 2).setIndex 0x050)
    s.Inv ∧ ∃ t, step s = .next t :=
  ⟨⟨by decide, by decide, by decide, fun r h => by cases h⟩, _, rfl⟩

/-- A step that stores, from the first writable address on. -/
theorem witness_GlyphRegionNeverChanges :
    ∃ t, step (ready 0xF155 ((regs 0 1 1 2).setIndex 0x050)) = .next t ∧ t.mem.get 0x051 = 2 :=
  ⟨_, rfl, by decide⟩

theorem witness_TimersTickAfterCompletedInstructions_completed :
    let s := ready 0x6000 (start.setDelay 1)
    s.fault = none ∧ fetchWord s = .ok 0x6000 ∧ decode 0x6000 = .ok (.ldImm 0 0) ∧
      ∃ t, exec (.ldImm 0 0) s = .next t ∧ t.fault = none ∧ blocked (.ldImm 0 0) s = false :=
  ⟨rfl, by rfl, by decide, _, rfl, rfl, rfl⟩

theorem witness_TimersTickAfterCompletedInstructions_raised :
    let s := ready 0x00EE (start.setDelay 1)
    s.fault = none ∧ fetchWord s = .ok 0x00EE ∧ decode 0x00EE = .ok .ret ∧
      ∃ t, exec .ret s = .next t ∧ t.fault ≠ none :=
  ⟨rfl, by rfl, by decide, _, rfl, by decide⟩

theorem witness_TimersTickAfterCompletedInstructions_blocked :
    let s := ready 0xF20A (start.setDelay 1)
    s.fault = none ∧ fetchWord s = .ok 0xF20A ∧ decode 0xF20A = .ok (.ldVxK 2) ∧
      (∃ t, exec (.ldVxK 2) s = .next t) ∧ blocked (.ldVxK 2) s = true :=
  ⟨rfl, by rfl, by decide, ⟨_, rfl⟩, by decide⟩

theorem witness_TimerWritesAreSeenOneTickLower :
    (fetchWord (ready 0xF015 start) = .ok 0xF015 ∧ decode 0xF015 = .ok (.ldDtVx 0)) ∧
    (fetchWord (ready 0xF318 start) = .ok 0xF318 ∧ decode 0xF318 = .ok (.ldStVx 3)) ∧
    (fetchWord (ready 0xF107 start) = .ok 0xF107 ∧ decode 0xF107 = .ok (.ldVxDt 1)) ∧
    (ready 0xF015 start).fault = none :=
  ⟨⟨by rfl, by decide⟩, ⟨by rfl, by decide⟩, ⟨by rfl, by decide⟩, rfl⟩

/-- A sequential instruction at the last fetchable address. -/
theorem witness_ProgramCounterMovesExactly_sequential :
    let s := ready 0x6001 (start.setPc 0xFFE)
    fetchWord s = .ok 0x6001 ∧ decode 0x6001 = .ok (.ldImm 0 1) ∧
      (∃ t, step s = .next t ∧ t.fault = none) ∧
      (Instr.ldImm 0 1).isSkip = false ∧ (Instr.ldImm 0 1).isTransfer = false ∧
      blocked (.ldImm 0 1) s = false :=
  ⟨by rfl, by decide, ⟨_, rfl, rfl⟩, rfl, rfl, rfl⟩

/-- A skip there (vector F20). -/
theorem witness_ProgramCounterMovesExactly_skip :
    let s := ready 0x3000 (start.setPc 0xFFE)
    fetchWord s = .ok 0x3000 ∧ decode 0x3000 = .ok (.seImm 0 0) ∧
      (∃ t, step s = .next t ∧ t.fault = none) ∧ (Instr.seImm 0 0).isSkip = true :=
  ⟨by rfl, by decide, ⟨_, rfl, rfl⟩, rfl⟩

/-- The transfer with the largest target (vector F25). -/
theorem witness_ProgramCounterMovesExactly_transfer :
    let s := ready 0xBFFF (start.setReg 0 0xFF)
    fetchWord s = .ok 0xBFFF ∧ decode 0xBFFF = .ok (.jpV0 0xFFF) ∧
      (∃ t, step s = .next t ∧ t.fault = none) ∧ (Instr.jpV0 0xFFF).isTransfer = true :=
  ⟨by rfl, by decide, ⟨_, rfl, rfl⟩, rfl⟩

theorem witness_ProgramCounterMovesExactly_blocked :
    let s := ready 0xF20A start
    fetchWord s = .ok 0xF20A ∧ decode 0xF20A = .ok (.ldVxK 2) ∧
      (∃ t, step s = .next t ∧ t.fault = none) ∧ blocked (.ldVxK 2) s = true :=
  ⟨by rfl, by decide, ⟨_, rfl, rfl⟩, by decide⟩

theorem witness_EveryInstructionWritesOnlyItsParts :
    ∃ t, exec (.ldMemVx 1) ((regs 0 1 1 2).setIndex 0xFFE) = .next t ∧ t.mem.get 0xFFF = 2 :=
  ⟨_, rfl, by decide⟩

theorem witness_FramebufferAndKeysHaveTheirWriters :
    (∃ t, exec (.ldImm 0 1) { start with redraw := true } = .next t) ∧
      Instr.ldImm 0 1 ≠ .cls ∧ ∀ x y n, Instr.ldImm 0 1 ≠ .drw x y n :=
  ⟨⟨_, rfl⟩, by decide, fun _ _ _ h => by cases h⟩

theorem witness_OnlyCallAndReturnUseTheStack :
    (∀ nnn, Instr.cls ≠ .call nnn) ∧ Instr.cls ≠ .ret :=
  ⟨fun _ => nofun, by decide⟩

theorem witness_SoundTimerIsNeverRead : ∀ x, Instr.ldDtVx 0 ≠ .ldStVx x :=
  fun _ h => by cases h

theorem witness_OnlyRndReadsTheRandomByte : ∀ x nn, Instr.ldImm 0 1 ≠ .rnd x nn :=
  fun _ _ h => by cases h

/-- The largest sum without a carry and the smallest with one. -/
theorem witness_AddWithCarry :
    (1 : Reg) ≠ vf ∧ ((regs 1 0x80 2 0x7F).reg 1).toNat + ((regs 1 0x80 2 0x7F).reg 2).toNat = 255 ∧
      ((regs 1 0x80 2 0x80).reg 1).toNat + ((regs 1 0x80 2 0x80).reg 2).toNat = 256 := by decide

/-- Equal operands, and a borrow of 1. -/
theorem witness_SubtractWithNotBorrow :
    (1 : Reg) ≠ vf ∧ (regs 1 5 2 5).reg 2 ≤ (regs 1 5 2 5).reg 1 ∧
      (regs 1 1 2 2).reg 1 < (regs 1 1 2 2).reg 2 := by decide

theorem witness_ReverseSubtractWithNotBorrow :
    (1 : Reg) ≠ vf ∧ (regs 1 5 2 5).reg 1 ≤ (regs 1 5 2 5).reg 2 ∧
      (regs 1 2 2 1).reg 2 < (regs 1 2 2 1).reg 1 := by decide

theorem witness_ShiftByOne : (0 : Reg) ≠ vf ∧ (14 : Reg) ≠ vf := by decide

/-- Each condition met and not met. -/
theorem witness_SkipsTestTheirCondition :
    (regs 1 7 2 7).reg 1 = (regs 1 7 2 7).reg 2 ∧ (regs 1 7 2 8).reg 1 ≠ (regs 1 7 2 8).reg 2 ∧
      (start.setReg 3 0x42).reg 3 = 0x42 ∧ (start.setReg 3 0x41).reg 3 ≠ 0x42 := by decide

theorem witness_JumpPlusV0IsTheExactSum : (0xFFF : Word).toNat ≤ 0xFFF := by decide

/-- The last free entry, and a full stack. -/
theorem witness_CallPushesTheReturnAddress :
    ({ start with sp := 15 } : State).sp.val < 16 ∧ ({ start with sp := 16 } : State).sp.val = 16 := by
  decide

/-- A full stack, one entry, and an empty stack. -/
theorem witness_ReturnPopsTheStack :
    0 < ({ start with sp := 16 } : State).sp.val ∧ 0 < ({ start with sp := 1 } : State).sp.val ∧
      start.sp.val = 0 := by decide

theorem witness_CallThenReturnResumes : ({ start with sp := 15 } : State).sp.val < 16 := by decide

/-- The largest sum without overflow and the smallest with it. -/
theorem witness_IndexAddWithOverflowFlag :
    let s := (start.setIndex 0xFFFE).setReg 2 1
    let t := (start.setIndex 0xFFFF).setReg 2 1
    s.i.toNat + (s.reg 2).toNat ≤ 0xFFFF ∧ 0xFFFF < t.i.toNat + (t.reg 2).toNat := by decide

/-- The first and the last writable block of three, and the addresses next to them. -/
theorem witness_BcdStore :
    (0x050 ≤ (start.setIndex 0x050).i.toNat ∧ (start.setIndex 0x050).i.toNat + 2 ≤ 0xFFF) ∧
    (0x050 ≤ (start.setIndex 0xFFD).i.toNat ∧ (start.setIndex 0xFFD).i.toNat + 2 ≤ 0xFFF) ∧
    (start.setIndex 0x04F).i.toNat ≤ 0x04F ∧ 0xFFF < (start.setIndex 0xFFE).i.toNat + 2 := by decide

/-- All 16 registers: the first and the last writable block, and the addresses next to them. -/
theorem witness_RegisterBlockStore :
    let x : Reg := 15
    (0x050 ≤ (start.setIndex 0x050).i.toNat ∧ (start.setIndex 0x050).i.toNat + x.val ≤ 0xFFF) ∧
    (0x050 ≤ (start.setIndex 0xFF0).i.toNat ∧ (start.setIndex 0xFF0).i.toNat + x.val ≤ 0xFFF) ∧
    (start.setIndex 0x04F).i.toNat ≤ 0x04F ∧ 0xFFF < (start.setIndex 0xFF1).i.toNat + x.val := by
  decide

theorem witness_RegisterBlockLoad :
    let x : Reg := 15
    (start.setIndex 0xFF0).i.toNat + x.val ≤ 0xFFF ∧
      0xFFF < (start.setIndex 0xFF1).i.toNat + x.val := by decide

/-- The addresses where the clauses meet. -/
theorem witness_MemoryReadsTheLatestWrite :
    0xFFF < 0x1000 ∧ 0x04F ≤ 0x04F ∧ (0x050 ≤ 0x050 ∧ 0x050 ≤ 0xFFF) ∧
      (0x050 ≤ 0xFFF ∧ 0xFFF ≤ 0xFFF) ∧ start.mem.wf := by decide

theorem witness_MemoriesThatReadAlikeAreEqual :
    let m := (bytesAt 0x300 [1] start).mem
    let n := (bytesAt 0x300 [1] (bytesAt 0x300 [2] start)).mem
    m.wf ∧ n.wf ∧ ∀ a ≤ 0xFFF, m.get a = n.get a :=
  ⟨by decide, by decide, fun _ _ => rfl⟩

set_option maxRecDepth 20000 in
/-- A sprite in the last four columns of the last row, on a clear screen. -/
theorem witness_DrawFlipsTheCoveredPixels :
    let s := regs 0 60 1 31
    s.spriteFits 0 1 1 ∧ s.covers 0 1 1 63 31 ∧
      ∀ px py, s.covers 0 1 1 px py → s.pixel px py = false := by
  refine ⟨?_, ⟨0, 3, by decide, by decide, by decide, by decide, by decide⟩, ?_⟩
  · unfold State.spriteFits State.rowFits
    decide
  · rintro px py ⟨r, c, hr, hc, -, rfl, rfl⟩
    obtain rfl : r = 0 := by omega
    interval_cases c <;> decide

set_option maxRecDepth 20000 in
/-- The same with a covered pixel set. -/
theorem witness_DrawFlipsTheCoveredPixels_collision :
    let s := lit 2047 (regs 0 60 1 31)
    s.spriteFits 0 1 1 ∧ ∃ px py, s.covers 0 1 1 px py ∧ s.pixel px py = true := by
  refine ⟨?_, 63, 31, ⟨0, 3, by decide, by decide, by decide, by decide, by decide⟩, by decide⟩
  unfold State.spriteFits State.rowFits
  decide

/-- The second row cannot be read. -/
theorem witness_DrawReportsTheFirstFailure_read :
    let s := start.setIndex 0xFFF
    (1 : Nat) < 2 ∧ (∀ j < 1, s.rowFits 0 0 j 8) ∧ 0xFFF < s.i.toNat + 1 := by
  refine ⟨by decide, ?_, by decide⟩
  unfold State.rowFits
  decide

/-- The first pixel off the right edge, and the first row off the bottom (vectors D7, D8). -/
theorem witness_DrawReportsTheFirstFailure_pixel :
    let s := regs 0 61 1 31
    let d := regs 0 0 1 31
    (s.rowFits 0 1 0 3 ∧ s.spriteBit 0 3 = true ∧ 63 < (s.reg 0).toNat + 3) ∧
    ((∀ j < 1, d.rowFits 0 1 j 8) ∧ d.rowFits 0 1 1 0 ∧ d.spriteBit 1 0 = true ∧
      31 < (d.reg 1).toNat + 1) := by
  unfold State.rowFits
  decide

/-- A sprite at the bottom right corner whose coordinates stand in registers other than VF. -/
theorem witness_DrawingTwiceRestores :
    (regs 0 60 1 27).spriteFits 0 1 5 ∧ (0 : Reg) ≠ vf ∧ (1 : Reg) ≠ vf := by
  unfold State.spriteFits State.rowFits
  decide

/-- The last key, pressed and not pressed, and the first value that is no key. -/
theorem witness_KeySkipsReadTheKey :
    ((start.setReg 0 15).reg 0).toNat = (15 : Key).val ∧
      (pressing [15] (start.setReg 0 15)).key[15] = true ∧ (start.setReg 0 15).key[15] = false ∧
      15 < ((start.setReg 0 16).reg 0).toNat := by decide

/-- Only the last key pressed, and no key pressed. -/
theorem witness_KeyWaitTakesTheLeastKey :
    ((keysFrom 15).key[15] = true ∧ ∀ j : Key, j < 15 → (keysFrom 15).key[j.val] = false) ∧
      ∀ k : Key, start.key[k.val] = false := by decide

theorem witness_KeyWaitHoldsUntilAKeyIsSet :
    let s := ready 0xF20A start
    s.fault = none ∧ fetchWord s = .ok 0xF20A ∧ decode 0xF20A = .ok (.ldVxK 2) ∧
      ∀ j : Key, s.key[j.val] = false :=
  ⟨rfl, by rfl, by decide, by decide⟩

/-- Image positions at both ends of the loaded part, and a byte that is dropped. -/
theorem witness_LoadBuildsTheResetState :
    (0 : Nat) < (List.replicate 0xE01 (0x12 : Byte)).length ∧
      0xDFF < (List.replicate 0xE01 (0x12 : Byte)).length ∧ 0xDFF < 0xE00 := by
  rw [List.length_replicate]
  decide

end Sys2Proof.Tests
end

/-! SUPPORT. What one instruction answers and what it leaves unchanged, and the proofs of the statements
about the state (10_state.md). -/

namespace Sys2Proof

theorem Instr.addressFits_fieldNNN (w : Word) : addressFits (fieldNNN w) = true := by
  have h := fieldNNN_toNat w
  exact decide_eq_true (by omega)

theorem Instr.countFits_fieldN (w : Word) : countFits (fieldN w) = true := by
  have h := fieldN_eq w
  exact decide_eq_true (by omega)

/-- The operands of a decoded instruction fit their fields (R92). -/
theorem wf_of_decode {w : Word} {i : Instr} (h : decode w = .ok i) : i.wf = true := by
  unfold decode decodeFamily0 decodeFamily5 decodeFamily8 decodeFamily9 decodeFamilyE
    decodeFamilyF at h
  repeat' split at h
  all_goals cases h
  all_goals simp [Instr.wf, Instr.addressFits_fieldNNN, Instr.countFits_fieldN]

end Sys2Proof

namespace Sys2Proof.Machine

/-! ### The instructions that may raise, as `commit` of one checked operation -/

theorem exec_ret (s : State) : exec .ret s = commit s (s.pop.map fun p => p.2.setPc p.1) := by
  simp only [exec, execRet]
  cases s.pop <;> rfl

theorem exec_call (nnn : Word) (s : State) :
    exec (.call nnn) s = commit s ((s.push (s.pc + 2)).map fun t => t.setPc nnn) := by
  simp only [exec, execCall]
  cases s.push (s.pc + 2) <;> rfl

theorem exec_skp (x : Reg) (s : State) :
    exec (.skp x) s = commit s ((keyIndex (s.reg x)).map fun k => s.skipIf s.key[k.val]) := by
  simp only [exec, execSkp]
  cases keyIndex (s.reg x) <;> rfl

theorem exec_sknp (x : Reg) (s : State) :
    exec (.sknp x) s = commit s ((keyIndex (s.reg x)).map fun k => s.skipIf (!s.key[k.val])) := by
  simp only [exec, execSknp]
  cases keyIndex (s.reg x) <;> rfl

theorem exec_drw (x y : Reg) (n : Nat) (s : State) :
    exec (.drw x y n) s = commit s
      ((drawSprite s.mem (s.indexed 0) (s.reg x).toNat (s.reg y).toNat n s.fb false).map
        fun p => ((s.setScreen p.1).setFlag p.2).advance) := by
  simp only [exec, execDrw]
  cases drawSprite s.mem (s.indexed 0) (s.reg x).toNat (s.reg y).toNat n s.fb false <;> rfl

theorem storeAtIndex_eq (bs : List Byte) (s : State) :
    storeAtIndex bs s =
      commit s ((storeBytes s.mem (s.indexed 0) bs).map fun m => (s.setMem m).advance) := by
  simp only [storeAtIndex]
  cases storeBytes s.mem (s.indexed 0) bs <;> rfl

theorem exec_ldB (x : Reg) (s : State) :
    exec (.ldB x) s = commit s
      ((storeBytes s.mem (s.indexed 0) (bcdDigits (s.reg x))).map fun m => (s.setMem m).advance) :=
  storeAtIndex_eq _ s

theorem exec_ldMemVx (x : Reg) (s : State) :
    exec (.ldMemVx x) s = commit s
      ((storeBytes s.mem (s.indexed 0) (s.regsUpTo x)).map fun m => (s.setMem m).advance) :=
  storeAtIndex_eq _ s

theorem exec_ldVxMem (x : Reg) (s : State) :
    exec (.ldVxMem x) s = commit s
      ((loadBytes s.mem (s.indexed 0) (x.val + 1)).map fun bs => (s.setRegs bs).advance) := by
  simp only [exec, execLdVxMem]
  cases loadBytes s.mem (s.indexed 0) (x.val + 1) <;> rfl

/-- `FX0A` waits where no key is pressed, and else takes the least pressed key (R235). -/
theorem exec_ldVxK_next {x : Reg} {s t : State} (h : exec (.ldVxK x) s = .next t) :
    (s.firstKey = none ∧ t = s) ∨
      ∃ k, s.firstKey = some k ∧ t = (s.setReg x (trunc8 k.val)).advance := by
  simp only [exec, execLdVxK] at h
  split at h
  next k hk => cases h; exact .inr ⟨k, hk, rfl⟩
  next hk => cases h; exact .inl ⟨hk, rfl⟩

/-- What an instruction that may raise can answer: the record of its error, or its writes as a whole
(R126). -/
theorem commit_map_next {α : Type} {s t : State} {r : Except FatalKind α} {f : α → State}
    (h : commit s (r.map f) = .next t) :
    (∃ e, r = .error e ∧ t = s.latched e (fetchedWord s)) ∨ ∃ a, r = .ok a ∧ t = f a := by
  cases r with
  | error e => cases h; exact .inl ⟨e, rfl, rfl⟩
  | ok a => cases h; exact .inr ⟨a, rfl, rfl⟩

/-- What holds after every error and after the writes holds after the instruction. -/
theorem commit_map_forall {α : Type} {s t : State} {r : Except FatalKind α} {f : α → State}
    {p : State → Prop} (h : commit s (r.map f) = .next t)
    (herr : ∀ e, p (s.latched e (fetchedWord s))) (hok : ∀ a, r = .ok a → p (f a)) : p t := by
  obtain ⟨e, _, rfl⟩ | ⟨a, ha, rfl⟩ := commit_map_next h
  · exact herr e
  · exact hok a ha

/-! ### The call stack -/

theorem State.pop_ok {s u : State} {a : Word} (h : s.pop = .ok (a, u)) :
    ∃ h : 0 < s.sp.val, a = s.stack[s.sp.val - 1]'(by omega) ∧ u.sp.val = s.sp.val - 1 ∧
      u = { s with sp := u.sp } := by
  rcases s.pop_cases with ⟨hsp, u', hpop, hu⟩ | ⟨_, hpop⟩ <;> cases hpop.symm.trans h
  exact ⟨hsp, rfl, hu⟩

theorem State.push_ok {s u : State} {a : Word} (h : s.push a = .ok u) :
    s.sp.val < 16 ∧ u.sp.val = s.sp.val + 1 ∧
      (∀ k (hk : k < 16), u.stack[k] = if k = s.sp.val then a else s.stack[k]) ∧
      u = { s with stack := u.stack, sp := u.sp } := by
  rcases s.push_cases a with ⟨hsp, u', hpush, hu⟩ | ⟨_, hpush⟩ <;> cases hpush.symm.trans h
  exact ⟨hsp, hu⟩

/-! ### Frames -/

section Frames

variable {P Q : Part → Prop} {s t u : State}

theorem OnlyChanges.refl (P : Part → Prop) (s : State) : OnlyChanges P s s := fun p _ => by
  cases p <;> rfl

theorem OnlyChanges.mono (h : OnlyChanges P s t) (hPQ : ∀ p, P p → Q p) : OnlyChanges Q s t :=
  fun p hp => h p (mt (hPQ p) hp)

theorem OnlyChanges.trans (h₁ : OnlyChanges P s t) (h₂ : OnlyChanges P t u) :
    OnlyChanges P s u := fun p hp => by
  have hst := h₁ p hp
  have htu := h₂ p hp
  cases p <;> exact Eq.trans htu hst

/-- Going on with an update of the one part `q`. -/
theorem OnlyChanges.andThen {q : Part} (h₁ : OnlyChanges P s t) (h₂ : OnlyChanges (· = q) t u)
    (hq : P q) : OnlyChanges P s u :=
  h₁.trans (h₂.mono fun _ hp => hp ▸ hq)

theorem onlyChanges_setReg (s : State) (x : Reg) (b : Byte) :
    OnlyChanges (· = .reg x) s (s.setReg x b) := fun p hp => by
  cases p
  case reg r => exact s.reg_setReg_other x r b fun hr => hp (hr ▸ rfl)
  all_goals rfl

theorem onlyChanges_setFlag (s : State) (c : Bool) :
    OnlyChanges (· = .reg vf) s (s.setFlag c) := onlyChanges_setReg s vf _

theorem onlyChanges_setRegs (s : State) (bs : List Byte) :
    OnlyChanges (fun p => ∃ r : Reg, p = .reg r ∧ r.val < bs.length) s (s.setRegs bs) :=
  fun p hp => by
    cases p
    case reg r => exact (s.reg_setRegs bs r).trans (dif_neg fun hr => hp ⟨r, rfl, hr⟩)
    all_goals rfl

theorem onlyChanges_setIndex (s : State) (a : Word) :
    OnlyChanges (· = .index) s (s.setIndex a) := fun p hp => by
  cases p
  case index => exact absurd rfl hp
  all_goals rfl

theorem onlyChanges_setPc (s : State) (a : Word) : OnlyChanges (· = .pc) s (s.setPc a) :=
  fun p hp => by
    cases p
    case pc => exact absurd rfl hp
    all_goals rfl

theorem onlyChanges_advance (s : State) : OnlyChanges (· = .pc) s s.advance :=
  onlyChanges_setPc s _

theorem onlyChanges_skipIf (s : State) (c : Bool) : OnlyChanges (· = .pc) s (s.skipIf c) :=
  onlyChanges_setPc s _

theorem onlyChanges_setDelay (s : State) (b : Byte) :
    OnlyChanges (· = .delay) s (s.setDelay b) := fun p hp => by
  cases p
  case delay => exact absurd rfl hp
  all_goals rfl

theorem onlyChanges_setSound (s : State) (b : Byte) :
    OnlyChanges (· = .sound) s (s.setSound b) := fun p hp => by
  cases p
  case sound => exact absurd rfl hp
  all_goals rfl

theorem onlyChanges_drawRnd (s : State) :
    OnlyChanges (fun p => p = .rnd ∨ p = .draws) s s.drawRnd := fun p hp => by
  cases p
  case rnd => exact absurd (.inl rfl) hp
  case draws => exact absurd (.inr rfl) hp
  all_goals rfl

theorem onlyChanges_setScreen (s : State) (fb : Framebuffer) :
    OnlyChanges (fun p => p = .redraw ∨ ∃ q, p = .pixel q) s (s.setScreen fb) := fun p hp => by
  cases p
  case redraw => exact absurd (.inl rfl) hp
  case pixel q => exact absurd (.inr ⟨q, rfl⟩) hp
  all_goals rfl

theorem onlyChanges_setKey (s : State) (k : Key) (b : Bool) :
    OnlyChanges (· = .key k) s (s.setKey k b) := fun p hp => by
  cases p
  case key j =>
    exact Vector.getElem_set_ne k.isLt j.isLt fun hkj => hp (congrArg Part.key (Fin.ext hkj.symm))
  all_goals rfl

theorem onlyChanges_clearRedraw (s : State) : OnlyChanges (· = .redraw) s s.clearRedraw :=
  fun p hp => by
    cases p
    case redraw => exact absurd rfl hp
    all_goals rfl

theorem onlyChanges_latched (s : State) (e : FatalKind) (w : Option Word) :
    OnlyChanges (· = .fault) s (s.latched e w) := fun p hp => by
  cases p
  case fault => exact absurd rfl hp
  all_goals rfl

/-- A store of several bytes changes the bytes stored. -/
theorem onlyChanges_setMem_of_storeBytes {bs : List Byte} {a : Nat} {m : Memory}
    (h : storeBytes s.mem a bs = .ok m) :
    OnlyChanges (fun p => ∃ k < bs.length, p = .byte (a + k)) s (s.setMem m) := fun p hp => by
  cases p
  case byte b =>
    refine storeBytes_frame bs s.mem m a h b fun hb => hp ⟨b - a, by omega, ?_⟩
    rw [Nat.add_sub_cancel' hb.1]
  all_goals rfl

theorem onlyChanges_push {a : Word} (h : s.push a = .ok t) :
    OnlyChanges (fun p => p = .sp ∨ ∃ k, p = .stackEntry k ∧ k.val = s.sp.val) s t :=
  fun p hp => by
    obtain ⟨_, _, hstack, ht⟩ := State.push_ok h
    rw [ht]
    cases p
    case sp => exact absurd (.inl rfl) hp
    case stackEntry k =>
      exact (hstack k.val k.isLt).trans (if_neg fun hk => hp (.inr ⟨k, rfl, hk⟩))
    all_goals rfl

theorem onlyChanges_pop {a : Word} (h : s.pop = .ok (a, t)) : OnlyChanges (· = .sp) s t :=
  fun p hp => by
    obtain ⟨_, _, _, ht⟩ := State.pop_ok h
    rw [ht]
    cases p
    case sp => exact absurd rfl hp
    all_goals rfl

/-- The frame of an instruction that may raise: `FAULT`, and what its writes as a whole change. -/
theorem onlyChanges_commit_map {α : Type} {r : Except FatalKind α} {f : α → State}
    (h : commit s (r.map f) = .next t) (hfault : P .fault)
    (hok : ∀ a, r = .ok a → OnlyChanges P s (f a)) : OnlyChanges P s t :=
  commit_map_forall h (fun e => (onlyChanges_latched s e _).mono fun _ hp => hp ▸ hfault) hok

end Frames

/-! ### The frame of each instruction -/

section ExecFrame

variable {s t : State}

theorem onlyChanges_writeResult {x : Reg} {b : Byte} (h : writeResult x b s = .next t) :
    OnlyChanges (fun p => p = .pc ∨ p = .reg x) s t := by
  cases h
  exact ((onlyChanges_setReg s x b).mono fun _ => .inr).andThen (onlyChanges_advance _) (.inl rfl)

theorem onlyChanges_writeResultFlag {x : Reg} {b : Byte} {c : Bool}
    (h : writeResultFlag x b c s = .next t) :
    OnlyChanges (fun p => p = .pc ∨ p = .reg x ∨ p = .reg vf) s t := by
  cases h
  exact (((onlyChanges_setReg s x b).mono fun _ h => .inr (.inl h)).andThen
    (onlyChanges_setFlag _ c) (.inr (.inr rfl))).andThen (onlyChanges_advance _) (.inl rfl)

theorem onlyChanges_drw {x y : Reg} {n : Nat} (h : exec (.drw x y n) s = .next t) :
    OnlyChanges ((Instr.drw x y n).mayWrite s) s t :=
  onlyChanges_commit_map ((exec_drw x y n s).symm.trans h)
    (.inr (.inr (.inr (.inl rfl)))) fun p _ =>
      (((onlyChanges_setScreen s p.1).mono fun _ hp =>
          hp.elim (fun hr => .inr (.inr (.inl hr))) fun hq => .inr (.inr (.inr (.inr hq)))).andThen
        (onlyChanges_setFlag _ p.2) (.inr (.inl rfl))).andThen (onlyChanges_advance _) (.inl rfl)

/-- A store of `bs` at `I` changes the bytes stored, PC, or the latch. -/
theorem onlyChanges_storeAtIndex {bs : List Byte} (h : storeAtIndex bs s = .next t) :
    OnlyChanges (fun p => p = .pc ∨ p = .fault ∨ ∃ k < bs.length, p = .byte (s.i.toNat + k)) s t :=
  onlyChanges_commit_map ((storeAtIndex_eq bs s).symm.trans h) (.inr (.inl rfl)) fun _ hstore =>
    ((onlyChanges_setMem_of_storeBytes hstore).mono fun _ hp => .inr (.inr hp)).andThen
      (onlyChanges_advance _) (.inl rfl)

theorem onlyChanges_ldVxMem {x : Reg} (h : exec (.ldVxMem x) s = .next t) :
    OnlyChanges ((Instr.ldVxMem x).mayWrite s) s t :=
  onlyChanges_commit_map ((exec_ldVxMem x s).symm.trans h) (.inr (.inl rfl)) fun bs hload =>
    have hlen : bs.length = x.val + 1 := loadBytes_length s.mem _ _ bs hload
    ((onlyChanges_setRegs s bs).mono fun _ ⟨r, hp, hr⟩ =>
      .inr (.inr ⟨r, Nat.le_of_lt_succ (hr.trans_eq hlen), hp⟩)).andThen
      (onlyChanges_advance _) (.inl rfl)

/-- Every instruction writes within its list (R21, R25, R31, R35, R36, R37, R72). -/
theorem onlyChanges_exec {i : Instr} (h : exec i s = .next t) : OnlyChanges (i.mayWrite s) s t := by
  cases i
  case cls =>
    cases h
    exact ((onlyChanges_setScreen s fbClear).mono fun _ => .inr).andThen
      (onlyChanges_advance _) (.inl rfl)
  case ret =>
    exact onlyChanges_commit_map ((exec_ret s).symm.trans h) (.inr (.inr rfl)) fun p hpop =>
      ((onlyChanges_pop hpop).mono fun _ hp => .inr (.inl hp)).andThen
        (onlyChanges_setPc _ _) (.inl rfl)
  case call nnn =>
    exact onlyChanges_commit_map ((exec_call nnn s).symm.trans h) (.inr (.inr (.inl rfl)))
      fun _ hpush => ((onlyChanges_push hpush).mono fun _ hp =>
        .inr (hp.imp_right .inr)).andThen (onlyChanges_setPc _ _) (.inl rfl)
  case jp | jpV0 => cases h; exact onlyChanges_setPc s _
  case seImm | sneImm | seReg | sneReg => cases h; exact onlyChanges_skipIf s _
  case ldImm | addImm | ldReg | orReg | andReg | xorReg | ldVxDt =>
    exact onlyChanges_writeResult h
  case addReg | subReg | shr | subn | shl => exact onlyChanges_writeResultFlag h
  case ldI | ldF =>
    cases h
    exact ((onlyChanges_setIndex s _).mono fun _ => .inr).andThen
      (onlyChanges_advance _) (.inl rfl)
  case addI =>
    cases h
    exact (((onlyChanges_setIndex s _).mono fun _ h => .inr (.inl h)).andThen
      (onlyChanges_setFlag _ _) (.inr (.inr rfl))).andThen (onlyChanges_advance _) (.inl rfl)
  case rnd x nn =>
    exact ((onlyChanges_drawRnd s).mono fun _ hp => .inr (.inr hp)).trans
      ((onlyChanges_writeResult h).mono fun _ hp => hp.imp_right .inl)
  case drw => exact onlyChanges_drw h
  case skp x =>
    exact onlyChanges_commit_map ((exec_skp x s).symm.trans h) (.inr rfl) fun _ _ =>
      (onlyChanges_skipIf s _).mono fun _ => .inl
  case sknp x =>
    exact onlyChanges_commit_map ((exec_sknp x s).symm.trans h) (.inr rfl) fun _ _ =>
      (onlyChanges_skipIf s _).mono fun _ => .inl
  case ldVxK x =>
    obtain ⟨_, rfl⟩ | ⟨k, _, rfl⟩ := exec_ldVxK_next h
    · exact .refl _ _
    · exact onlyChanges_writeResult rfl
  case ldDtVx =>
    cases h
    exact ((onlyChanges_setDelay s _).mono fun _ => .inr).andThen
      (onlyChanges_advance _) (.inl rfl)
  case ldStVx =>
    cases h
    exact ((onlyChanges_setSound s _).mono fun _ => .inr).andThen
      (onlyChanges_advance _) (.inl rfl)
  case ldB =>
    exact (onlyChanges_storeAtIndex h).mono fun _ hp =>
      hp.imp_right (.imp_right fun ⟨k, hk, hb⟩ => ⟨k, Nat.le_of_lt_succ hk, hb⟩)
  case ldMemVx x =>
    exact (onlyChanges_storeAtIndex h).mono fun _ hp =>
      hp.imp_right (.imp_right fun ⟨k, hk, hb⟩ =>
        ⟨k, Nat.le_of_lt_succ (hk.trans_eq (s.length_regsUpTo x)), hb⟩)
  case ldVxMem => exact onlyChanges_ldVxMem h

/-! ### The parts with few writers -/

theorem exec_key {i : Instr} (h : exec i s = .next t) : t.key = s.key :=
  Vector.ext fun k hk => onlyChanges_exec h (.key ⟨k, hk⟩) (by cases i <;> simp [Instr.mayWrite])

/-- `00E0` and `DXYN` apart, no instruction may write REDRAW or a pixel (R35, R37). -/
theorem Instr.not_mayWrite_screen {i : Instr} (hcls : i ≠ .cls) (hdrw : ∀ x y n, i ≠ .drw x y n) :
    ¬ i.mayWrite s .redraw ∧ ∀ q, ¬ i.mayWrite s (.pixel q) := by
  cases i
  case cls => exact absurd rfl hcls
  case drw x y n => exact absurd rfl (hdrw x y n)
  all_goals simp [Instr.mayWrite]

theorem exec_screen_of_ne {i : Instr} (h : exec i s = .next t) (hcls : i ≠ .cls)
    (hdrw : ∀ x y n, i ≠ .drw x y n) : t.fb = s.fb ∧ t.redraw = s.redraw := by
  obtain ⟨hredraw, hpixel⟩ := Instr.not_mayWrite_screen (s := s) hcls hdrw
  exact ⟨Vector.ext fun p hp => onlyChanges_exec h (.pixel ⟨p, hp⟩) (hpixel _),
    onlyChanges_exec h .redraw hredraw⟩

/-- No instruction clears REDRAW (R37): the two that write it set it. -/
theorem exec_redraw_of_set {i : Instr} (h : exec i s = .next t) (hs : s.redraw = true) :
    t.redraw = true := by
  cases i
  case cls => cases h; rfl
  case drw x y n =>
    obtain ⟨_, _, rfl⟩ | ⟨_, _, rfl⟩ := commit_map_next ((exec_drw x y n s).symm.trans h)
    · exact hs
    · rfl
  all_goals exact (exec_screen_of_ne h (by simp) (by simp)).2.trans hs

end ExecFrame

/-- Settles O18: `onlyChanges_exec`, the frame of each of the 34 instructions. -/
theorem everyInstructionWritesOnlyItsParts : Obligations.EveryInstructionWritesOnlyItsParts :=
  fun _ _ _ h => onlyChanges_exec h

/-- Settles O19, from the frames of the instructions. -/
theorem framebufferAndKeysHaveTheirWriters : Obligations.FramebufferAndKeysHaveTheirWriters :=
  fun _ _ _ h => ⟨exec_key h, exec_redraw_of_set h, exec_screen_of_ne h⟩

/-! ### The invariant -/

section Invariant

variable {s t u : State} {i : Instr}

/-- Only `FX33` and `FX55` replace the memory, and they do so by a store of bytes (R72). -/
theorem exec_mem_cases (h : exec i s = .next t) :
    t.mem = s.mem ∨ ∃ a bs, storeBytes s.mem a bs = .ok t.mem := by
  have hcommit : ∀ {α : Type} {r : Except FatalKind α} {f : α → State},
      commit s (r.map f) = .next t → (∀ a, r = .ok a → (f a).mem = s.mem) → t.mem = s.mem :=
    fun hr hok => commit_map_forall (p := fun t => t.mem = s.mem) hr (fun _ => rfl) hok
  have hstore : ∀ {bs : List Byte}, storeAtIndex bs s = .next t →
      t.mem = s.mem ∨ ∃ a bs, storeBytes s.mem a bs = .ok t.mem := by
    intro bs hst
    obtain ⟨e, _, rfl⟩ | ⟨m, hm, rfl⟩ := commit_map_next ((storeAtIndex_eq bs s).symm.trans hst)
    · exact .inl rfl
    · exact .inr ⟨_, bs, hm⟩
  cases i
  case ldB | ldMemVx => exact hstore h
  case ret =>
    exact .inl (hcommit ((exec_ret s).symm.trans h) fun p hpop => by
      obtain ⟨_, _, _, hu⟩ := State.pop_ok hpop
      rw [State.setPc_mem, hu])
  case call nnn =>
    exact .inl (hcommit ((exec_call nnn s).symm.trans h) fun u hpush => by
      obtain ⟨_, _, _, hu⟩ := State.push_ok hpush
      rw [State.setPc_mem, hu])
  case skp x => exact .inl (hcommit ((exec_skp x s).symm.trans h) fun _ _ => rfl)
  case sknp x => exact .inl (hcommit ((exec_sknp x s).symm.trans h) fun _ _ => rfl)
  case drw x y n => exact .inl (hcommit ((exec_drw x y n s).symm.trans h) fun _ _ => rfl)
  case ldVxMem x => exact .inl (hcommit ((exec_ldVxMem x s).symm.trans h) fun _ _ => rfl)
  case ldVxK => obtain ⟨_, rfl⟩ | ⟨_, _, rfl⟩ := exec_ldVxK_next h <;> exact .inl rfl
  all_goals cases h; exact .inl rfl

theorem exec_mem_wf (h : exec i s = .next t) (hm : s.mem.wf) : t.mem.wf := by
  obtain hmem | ⟨a, bs, hstore⟩ := exec_mem_cases h
  · exact hmem ▸ hm
  · obtain ⟨_, hwf, _, _⟩ := storeBytes_ok bs s.mem t.mem a hstore
    exact hwf hm

/-- `NNN + V[0]` is at most 0x10FE (R28, R147). -/
theorem jumpTarget_toNat_le {nnn : Word} (h : nnn.toNat ≤ 0xFFF) (b : Byte) :
    (jumpTarget nnn b).toNat ≤ 0x10FE := by
  have hb := b.isLt
  rw [jumpTarget, BitVec.toNat_ofNat]
  omega

/-- At a PC a fetch succeeds at, the sums of R125 are exact (R129). -/
theorem State.pc_add_toNat (hpc : s.pc.toNat + 1 ≤ 0xFFF) {d : Word} (hd : d.toNat ≤ 4) :
    (s.pc + d).toNat = s.pc.toNat + d.toNat := by
  rw [BitVec.toNat_add]
  exact Nat.mod_eq_of_lt (by omega)

theorem State.pc_add_two_toNat (hpc : s.pc.toNat + 1 ≤ 0xFFF) :
    (s.pc + 2).toNat = s.pc.toNat + 2 := State.pc_add_toNat hpc (by decide)

theorem State.skipIf_pc_toNat (hpc : s.pc.toNat + 1 ≤ 0xFFF) (c : Bool) :
    (s.skipIf c).pc.toNat = s.pc.toNat + if c then 4 else 2 := by
  cases c <;> exact State.pc_add_toNat hpc (by decide)

theorem State.skipIf_pc_le (hpc : s.pc.toNat + 1 ≤ 0xFFF) (c : Bool) :
    (s.skipIf c).pc.toNat ≤ 0x10FE := by
  have hsum := State.skipIf_pc_toNat hpc c
  split at hsum <;> omega

/-- From a PC a fetch succeeds at, an instruction whose operands fit leads to a PC in the range of
R28: a step or a skip, a 12-bit target, `NNN + V[0]`, or a return address. -/
theorem exec_pc_le (h : exec i s = .next t) (hwf : i.wf = true) (hpc : s.pc.toNat + 1 ≤ 0xFFF)
    (hstack : ∀ k : Fin 16, (s.stack[k.val]).toNat ≤ 0x1000) : t.pc.toNat ≤ 0x10FE := by
  have hadd : (s.pc + 2).toNat ≤ 0x10FE := State.skipIf_pc_le hpc false
  have htarget : ∀ {nnn : Word}, Instr.addressFits nnn = true → nnn.toNat ≤ 0xFFF :=
    of_decide_eq_true
  have hcommit : ∀ {α : Type} {r : Except FatalKind α} {f : α → State},
      commit s (r.map f) = .next t → (∀ a, r = .ok a → (f a).pc.toNat ≤ 0x10FE) →
        t.pc.toNat ≤ 0x10FE := fun hr hok =>
    commit_map_forall (p := fun t => t.pc.toNat ≤ 0x10FE) hr
      (fun _ => (Nat.le_of_succ_le hpc).trans (by decide)) hok
  cases i
  case jp nnn => cases h; exact (htarget hwf).trans (by decide)
  case call nnn =>
    exact hcommit ((exec_call nnn s).symm.trans h) fun _ _ => (htarget hwf).trans (by decide)
  case jpV0 nnn => cases h; exact jumpTarget_toNat_le (htarget hwf) _
  case ret =>
    refine hcommit ((exec_ret s).symm.trans h) fun p hpop => ?_
    obtain ⟨hsp, ha, _, _⟩ := State.pop_ok hpop
    rw [State.setPc_pc, ha]
    exact (hstack ⟨s.sp.val - 1, by omega⟩).trans (by decide)
  case seImm | sneImm | seReg | sneReg => cases h; exact State.skipIf_pc_le hpc _
  case skp x => exact hcommit ((exec_skp x s).symm.trans h) fun _ _ => State.skipIf_pc_le hpc _
  case sknp x => exact hcommit ((exec_sknp x s).symm.trans h) fun _ _ => State.skipIf_pc_le hpc _
  case drw x y n => exact hcommit ((exec_drw x y n s).symm.trans h) fun _ _ => hadd
  case ldB x => exact hcommit ((exec_ldB x s).symm.trans h) fun _ _ => hadd
  case ldMemVx x => exact hcommit ((exec_ldMemVx x s).symm.trans h) fun _ _ => hadd
  case ldVxMem x => exact hcommit ((exec_ldVxMem x s).symm.trans h) fun _ _ => hadd
  case ldVxK =>
    obtain ⟨_, rfl⟩ | ⟨_, _, rfl⟩ := exec_ldVxK_next h
    · omega
    · exact hadd
  all_goals cases h; exact hadd

/-- A stack entry after an instruction is what it was, or the return address of a call (R31, R142). -/
theorem exec_stack_cases (h : exec i s = .next t) (k : Fin 16) :
    t.stack[k.val] = s.stack[k.val] ∨ t.stack[k.val] = s.pc + 2 := by
  by_cases hcall : i.mayWrite s (.stackEntry k)
  · cases i
    case call nnn =>
      obtain ⟨e, _, rfl⟩ | ⟨u, hpush, rfl⟩ := commit_map_next ((exec_call nnn s).symm.trans h)
      · exact .inl rfl
      · obtain ⟨_, _, hentry, _⟩ := State.push_ok hpush
        rw [State.setPc_stack, hentry k.val k.isLt]
        exact (ite_eq_or_eq _ _ _).symm
    all_goals simp [Instr.mayWrite] at hcall
  · exact .inl (onlyChanges_exec h _ hcall)

/-- Taking a fatal error keeps the invariant: the record names PC and the word there (R255). -/
theorem State.Inv.latched (hs : s.Inv) (e : FatalKind) : (s.latched e (fetchedWord s)).Inv where
  memory := hs.memory
  pcRange := hs.pcRange
  stackRange := hs.stackRange
  latch r hr := by cases hr; exact ⟨rfl, rfl⟩

theorem State.Inv.tick (hs : s.Inv) : s.tick.Inv where
  memory := hs.memory
  pcRange := hs.pcRange
  stackRange := hs.stackRange
  latch := hs.latch

/-- An instruction whose operands fit, run where a fetch succeeds, keeps the invariant. -/
theorem State.Inv.exec (hs : s.Inv) (hfault : s.fault = none) (hpc : s.pc.toNat + 1 ≤ 0xFFF)
    (hwf : i.wf = true) (h : exec i s = .next t) : t.Inv := by
  obtain ⟨e, rfl⟩ | hclear := exec_cases h
  · exact hs.latched e
  · refine ⟨exec_mem_wf h hs.memory, exec_pc_le h hwf hpc hs.stackRange, fun k => ?_, fun r hr => ?_⟩
    · obtain hk | hk := exec_stack_cases h k
      · exact hk ▸ hs.stackRange k
      · rw [hk, State.pc_add_two_toNat hpc]
        omega
    · rw [hclear, hfault] at hr
      cases hr

/-- Every step keeps the invariant: it takes a fatal error, or runs a decoded instruction. -/
theorem State.Inv.step (hs : s.Inv) (h : step s = .next t) : t.Inv := by
  obtain ⟨hfault, ⟨_, hw, rfl⟩ | ⟨w, hw, _, rfl⟩ | ⟨w, i, u, hw, hdecode, hexec, rfl⟩⟩ :=
    step_cases h
  · exact hw ▸ hs.latched _
  · exact fetchedWord_of_ok hw ▸ hs.latched _
  · have hpc : s.pc.toNat + 1 ≤ 0xFFF := by
      obtain ⟨hpc, _⟩ | ⟨_, herr, _⟩ := fetchWord_cases s
      · exact hpc
      · cases herr.symm.trans hw
    have hu : u.Inv := hs.exec hfault hpc (wf_of_decode hdecode) hexec
    split
    · exact hu
    · exact hu.tick

end Invariant

/-- Settles O12: `State.Inv.step`, from `exec_mem_wf`, `exec_pc_le` and `exec_stack_cases`. -/
theorem stepKeepsTheInvariant : Obligations.StepKeepsTheInvariant :=
  fun _ _ hs h => hs.step h

/-! ### Reset and load -/

/-- The reset state with any memory in canonical form meets the invariant. -/
theorem State.Inv.resetWith (glyphs : Vector Byte 80) {m : Memory} (hm : m.wf) :
    ((State.resetWith glyphs).setMem m).Inv where
  memory := hm
  pcRange := by show (0x200 : Word).toNat ≤ 0x10FE; decide
  stackRange k := by simp [State.resetWith]
  latch _ hr := by cases hr

/-- Settles O13: a memory without listed cells is in canonical form, and so is a loaded one. -/
theorem resetAndLoadMeetTheInvariant : Obligations.ResetAndLoadMeetTheInvariant :=
  ⟨State.Inv.resetWith Config.defaultGlyphs (m := { glyphs := Config.defaultGlyphs, cells := [] })
      ⟨.nil, fun _ hc => by cases hc⟩,
    fun glyphs image => .resetWith glyphs
      (wf_imageCells glyphs _ (List.length_take_le 0xE00 image))⟩

/-- A loaded byte above the glyph region: the image from 0x200, at most 0xE00 bytes of it, and 0
elsewhere (R282). -/
theorem State.loadImage_get_of_ge (glyphs : Vector Byte 80) (image : List Byte) {a : Nat}
    (ha : 80 ≤ a) :
    (State.loadImage glyphs image).mem.get a =
      if h : 0x200 ≤ a ∧ a < 0x200 + (image.take 0xE00).length then
        (image.take 0xE00)[a - 0x200]'(by omega) else 0 := by
  rw [← lookupCell_imageCells, Memory.get, Memory.unlisted, dif_neg (by omega)]
  rfl

/-- A loaded byte of the glyph region (R281). -/
theorem State.loadImage_get_of_lt (glyphs : Vector Byte 80) (image : List Byte) {a : Nat}
    (ha : a < 80) : (State.loadImage glyphs image).mem.get a = glyphs[a] :=
  (Memory.get_of_not_writable (wf_imageCells glyphs _ (List.length_take_le 0xE00 image))
    (.inl ha)).trans (dif_pos ha)

/-- Settles O53: the registers are those of the reset state, the bytes those of the loaded memory. -/
theorem loadBuildsTheResetState : Obligations.LoadBuildsTheResetState := by
  intro glyphs image
  refine ⟨rfl, State.loadImage glyphs image, rfl, fun r => ?_, rfl, rfl, rfl, rfl, rfl,
    fun k => ?_, fun k => ?_, fun p => ?_, rfl, rfl,
    fun a ha => State.loadImage_get_of_lt glyphs image ha, fun k hk hlt => ?_,
    fun a hlo hhi => ?_, fun a ha => ?_⟩
  · exact Vector.getElem_replicate r.isLt
  · exact Vector.getElem_replicate k.isLt
  · exact Vector.getElem_replicate k.isLt
  · exact Vector.getElem_replicate p.isLt
  · rw [State.loadImage_get_of_ge glyphs image (by omega),
      dif_pos (by rw [List.length_take]; omega)]
    simp
  · rw [State.loadImage_get_of_ge glyphs image hlo, dif_neg (by omega)]
  · rw [State.loadImage_get_of_ge glyphs image (by omega),
      dif_neg (by rw [List.length_take]; omega)]

/-! ### Parts that few instructions use -/

/-- Values put over a part of the state that few instructions use. -/
inductive Overlay where
  | stack (entries : Vector Word 16) (count : Fin 17)
  | sound (b : Byte)
  | random (b : Byte) (taken : Nat)
  | redraw (b : Bool)

/-- The state with those values in that part. -/
def Overlay.apply : Overlay → State → State
  | .stack entries count, s => { s with stack := entries, sp := count }
  | .sound b, s => { s with st := b }
  | .random b taken, s => { s with rnd := b, draws := taken }
  | .redraw b, s => { s with redraw := b }

/-- The instructions that read or write the part (R31, R33, R37, R47). -/
def Overlay.usedBy (i : Instr) : Overlay → Prop
  | .stack _ _ => (∃ nnn, i = .call nnn) ∨ i = .ret
  | .sound _ => ∃ x, i = .ldStVx x
  | .random _ _ => ∃ x nn, i = .rnd x nn
  | .redraw _ => i = .cls ∨ ∃ x y n, i = .drw x y n

namespace Overlay

variable (o : Overlay) (s : State)

@[simp] theorem apply_reg (r : Reg) : (o.apply s).reg r = s.reg r := by cases o <;> rfl
@[simp] theorem apply_indexed (k : Nat) : (o.apply s).indexed k = s.indexed k := by cases o <;> rfl
@[simp] theorem apply_regsUpTo (x : Reg) : (o.apply s).regsUpTo x = s.regsUpTo x := by
  cases o <;> rfl
@[simp] theorem apply_pc : (o.apply s).pc = s.pc := by cases o <;> rfl
@[simp] theorem apply_key : (o.apply s).key = s.key := by cases o <;> rfl
@[simp] theorem apply_firstKey : (o.apply s).firstKey = s.firstKey := by cases o <;> rfl
@[simp] theorem apply_fb : (o.apply s).fb = s.fb := by cases o <;> rfl
@[simp] theorem apply_fault : (o.apply s).fault = s.fault := by cases o <;> rfl
@[simp] theorem apply_mem : (o.apply s).mem = s.mem := by cases o <;> rfl
@[simp] theorem apply_fetchWord : fetchWord (o.apply s) = fetchWord s := by cases o <;> rfl

theorem apply_setPc (a : Word) : (o.apply s).setPc a = o.apply (s.setPc a) := by cases o <;> rfl

/-- `Pop` reads and writes the stack alone (R30). -/
theorem pop_apply (ho : ∀ entries count, o ≠ .stack entries count) :
    (o.apply s).pop = s.pop.map fun p => (p.1, o.apply p.2) := by
  cases o with
  | stack entries count => exact absurd rfl (ho entries count)
  | _ => by_cases h : s.sp.val = 0 <;> simp [State.pop, apply, h, Except.map]

/-- `Push` reads and writes the stack alone (R30). -/
theorem push_apply (ho : ∀ entries count, o ≠ .stack entries count) (a : Word) :
    (o.apply s).push a = (s.push a).map o.apply := by
  cases o with
  | stack entries count => exact absurd rfl (ho entries count)
  | _ => by_cases h : s.sp.val < 16 <;> simp [State.push, apply, h, Except.map]

/-- Taking a fatal error uses no such part. -/
theorem raise_apply (e : FatalKind) : raise e (o.apply s) = mapNext o.apply (raise e s) := by
  cases o <;> rfl

/-- An instruction that may raise uses no such part if its writes do not. -/
theorem commit_map_apply {α : Type} (r : Except FatalKind α) {f g : α → State}
    (hfg : ∀ a, g a = o.apply (f a)) :
    commit (o.apply s) (r.map g) = mapNext o.apply (commit s (r.map f)) := by
  cases r with
  | error e => exact o.raise_apply s e
  | ok a => exact congrArg Host.Outcome.next (hfg a)

/-- An instruction that does not use the part does the same whatever is in it, and leaves that. -/
theorem exec_apply {i : Instr} (hi : ¬ o.usedBy i) :
    exec i (o.apply s) = mapNext o.apply (exec i s) := by
  cases i
  case cls =>
    cases o with
    | redraw => exact absurd (.inl rfl) hi
    | _ => rfl
  case ret =>
    have ho : ∀ entries count, o ≠ .stack entries count := by
      rintro entries count rfl
      exact hi (.inr rfl)
    rw [exec_ret, exec_ret, o.pop_apply s ho]
    cases s.pop with
    | error e => exact o.raise_apply s e
    | ok p => exact congrArg Host.Outcome.next (o.apply_setPc _ _)
  case call nnn =>
    have ho : ∀ entries count, o ≠ .stack entries count := by
      rintro entries count rfl
      exact hi (.inl ⟨nnn, rfl⟩)
    rw [exec_call, exec_call, apply_pc, o.push_apply s ho]
    cases s.push (s.pc + 2) with
    | error e => exact o.raise_apply s e
    | ok p => exact congrArg Host.Outcome.next (o.apply_setPc _ _)
  case rnd x nn =>
    cases o with
    | random => exact absurd ⟨x, nn, rfl⟩ hi
    | _ => rfl
  case ldStVx x =>
    cases o with
    | sound => exact absurd ⟨x, rfl⟩ hi
    | _ => rfl
  case drw x y n =>
    simp only [exec_drw, apply_mem, apply_indexed, apply_reg, apply_fb]
    refine o.commit_map_apply s _ fun p => ?_
    cases o with
    | redraw => exact absurd (.inr ⟨x, y, n, rfl⟩) hi
    | _ => rfl
  case skp x =>
    simp only [exec_skp, apply_reg, apply_key]
    exact o.commit_map_apply s _ fun _ => by cases o <;> rfl
  case sknp x =>
    simp only [exec_sknp, apply_reg, apply_key]
    exact o.commit_map_apply s _ fun _ => by cases o <;> rfl
  case ldB x =>
    simp only [exec_ldB, apply_mem, apply_indexed, apply_reg]
    exact o.commit_map_apply s _ fun _ => by cases o <;> rfl
  case ldMemVx x =>
    simp only [exec_ldMemVx, apply_mem, apply_indexed, apply_regsUpTo]
    exact o.commit_map_apply s _ fun _ => by cases o <;> rfl
  case ldVxMem x =>
    simp only [exec_ldVxMem, apply_mem, apply_indexed]
    exact o.commit_map_apply s _ fun _ => by cases o <;> rfl
  case ldVxK x =>
    simp only [exec, execLdVxK, apply_firstKey]
    cases s.firstKey with
    | none => rfl
    | some k => cases o <;> rfl
  all_goals cases o <;> rfl

end Overlay

/-- Settles O20: the stack and its count are an overlay that only `2NNN` and `00EE` use. -/
theorem onlyCallAndReturnUseTheStack : Obligations.OnlyCallAndReturnUseTheStack :=
  fun _ s stack sp hcall hret => (Overlay.stack stack sp).exec_apply s
    (not_or.mpr ⟨not_exists.mpr hcall, hret⟩)

/-- Settles O22: the sound timer is an overlay that only `FX18` uses. -/
theorem soundTimerIsNeverRead : Obligations.SoundTimerIsNeverRead :=
  fun _ s b hst => (Overlay.sound b).exec_apply s (not_exists.mpr hst)

/-- Settles O23: the random byte and the count of draws are an overlay that only `CXNN` uses. -/
theorem onlyRndReadsTheRandomByte : Obligations.OnlyRndReadsTheRandomByte :=
  fun _ s b d hrnd => (Overlay.random b d).exec_apply s
    fun ⟨x, nn, hi⟩ => hrnd x nn hi

/-! ### REDRAW is output only -/

theorem mapNext_mapNext (f g : State → State) (out : Outcome) :
    mapNext f (mapNext g out) = mapNext (f ∘ g) out := by
  cases out <;> rfl

/-- An instruction run with another REDRAW does the same but for REDRAW: it does not use it, or is
`00E0` or `DXYN`, which set it. -/
theorem exec_redraw_clearRedraw (i : Instr) (s : State) (b : Bool) :
    mapNext State.clearRedraw (exec i ((Overlay.redraw b).apply s)) =
      mapNext State.clearRedraw (exec i s) := by
  by_cases hi : (Overlay.redraw b).usedBy i
  · obtain rfl | ⟨x, y, n, rfl⟩ := hi
    · rfl
    · simp only [exec_drw, Overlay.apply_mem, Overlay.apply_indexed, Overlay.apply_reg,
        Overlay.apply_fb]
      cases drawSprite s.mem (s.indexed 0) (s.reg x).toNat (s.reg y).toNat n s.fb false <;> rfl
  · rw [Overlay.exec_apply _ s hi, mapNext_mapNext]
    rfl

/-- Whether an instruction is blocked does not depend on such a part. -/
theorem Overlay.blocked_apply (o : Overlay) (i : Instr) (s : State) :
    blocked i (o.apply s) = blocked i s := by
  cases i
  case ldVxK => exact congrArg Option.isNone (o.apply_firstKey s)
  all_goals rfl

/-- What a step adds after its instruction neither reads nor writes REDRAW. -/
theorem finish_clearRedraw (i : Instr) (s : State) (out : Outcome) :
    mapNext State.clearRedraw (finish i s out) = finish i s (mapNext State.clearRedraw out) := by
  cases out with
  | next t => exact apply_ite (mapNext State.clearRedraw) _ _ _
  | fault | refused => rfl

theorem finish_congr {i : Instr} {s s' : State} (h : blocked i s' = blocked i s) (out : Outcome) :
    finish i s' out = finish i s out := by
  cases out <;> simp only [finish, h]

theorem cycle_redraw_clearRedraw (s : State) (b : Bool) :
    mapNext State.clearRedraw (cycle ((Overlay.redraw b).apply s)) =
      mapNext State.clearRedraw (cycle s) := by
  have hraise : ∀ e, mapNext State.clearRedraw (raise e ((Overlay.redraw b).apply s)) =
      mapNext State.clearRedraw (raise e s) := fun _ => rfl
  simp only [cycle, Overlay.apply_fetchWord]
  cases fetchWord s with
  | error e => exact hraise e
  | ok w =>
    dsimp only
    cases decode w with
    | error => exact hraise .unknownOpcode
    | ok i =>
      simp only [finish_congr ((Overlay.redraw b).blocked_apply i s), finish_clearRedraw,
        exec_redraw_clearRedraw]

/-- Settles O21: with the latch set both steps answer the record, else both run the same cycle. -/
theorem redrawIsOutputOnly : Obligations.RedrawIsOutputOnly := by
  intro s b
  change mapNext _ (step ((Overlay.redraw b).apply s)) = _
  simp only [step, Overlay.apply_fault]
  cases s.fault with
  | none => exact cycle_redraw_clearRedraw s b
  | some r => rfl

/-! ### Call, return and the ports -/

/-- Settles O34, by the two cases of `Push`. -/
theorem callPushesTheReturnAddress : Obligations.CallPushesTheReturnAddress := by
  intro s nnn
  rw [exec_call]
  obtain ⟨hlt, t, hpush, hsp, hentry, _⟩ | ⟨hfull, hpush⟩ := s.push_cases (s.pc + 2)
  · refine ⟨fun h => ⟨t.setPc nnn, by rw [hpush]; rfl, ?_, hsp, rfl, ?_⟩, fun h => by omega⟩
    · exact (hentry _ h).trans (if_pos rfl)
    · refine ((onlyChanges_push hpush).mono fun p hp => ?_).andThen (onlyChanges_setPc t nnn)
        (.inr (.inr rfl))
      obtain hp | ⟨k, rfl, hk⟩ := hp
      · exact .inr (.inl hp)
      · exact .inl (congrArg Part.stackEntry (Fin.ext hk))
  · exact ⟨fun h => by omega, fun _ => by rw [hpush]; rfl⟩

/-- Settles O35, by the two cases of `Pop`. -/
theorem returnPopsTheStack : Obligations.ReturnPopsTheStack := by
  intro s
  rw [exec_ret]
  obtain ⟨hpos, t, hpop, hsp, _⟩ | ⟨hempty, hpop⟩ := s.pop_cases
  · refine ⟨fun h => ⟨t.setPc _, by rw [hpop]; rfl, rfl, hsp, ?_⟩, fun h => by omega⟩
    exact ((onlyChanges_pop hpop).mono fun _ => .inl).andThen (onlyChanges_setPc t _) (.inr rfl)
  · exact ⟨fun h => by omega, fun _ => by rw [hpop]; rfl⟩

/-- Settles O54: each port is one update of the state. -/
theorem portsChangeTheirPartAlone : Obligations.PortsChangeTheirPartAlone :=
  fun s k b => ⟨Vector.getElem_set_self k.isLt, onlyChanges_setKey s k b, rfl,
    onlyChanges_clearRedraw s⟩

end Sys2Proof.Machine

/-! SUPPORT. The proofs of the statements about memory (20_memory.md). -/

namespace Sys2Proof.Machine

/-! ### The glyph region -/

/-- A step keeps the memory or stores bytes in it: the step of an instruction as `exec_mem_cases`
says, and neither a fatal error nor the timer tick touches the memory (R126, R127). -/
theorem step_mem_cases {s t : State} (h : step s = .next t) :
    t.mem = s.mem ∨ ∃ a bs, storeBytes s.mem a bs = .ok t.mem := by
  obtain ⟨_, ⟨_, _, rfl⟩ | ⟨_, _, _, rfl⟩ | ⟨w, i, u, _, _, hexec, rfl⟩⟩ := step_cases h
  · exact .inl rfl
  · exact .inl rfl
  · have hmem := exec_mem_cases hexec
    split
    · exact hmem
    · exact hmem

/-- Settles O14: a step keeps the memory or stores bytes, and a store that answers a memory wrote
nothing in the glyph region. -/
theorem glyphRegionNeverChanges : Obligations.GlyphRegionNeverChanges := by
  intro s t h
  obtain hkept | ⟨a, bs, hstore⟩ := step_mem_cases h
  · rw [hkept]
    exact ⟨rfl, fun _ _ => rfl⟩
  · obtain ⟨hglyphs, _, _, hget⟩ := storeBytes_ok bs s.mem t.mem a hstore
    exact ⟨hglyphs, hget⟩

/-! ### Checked accesses -/

/-- A checked read of another address does not see a write. -/
theorem memRead_set_of_ne (m : Memory) {a b : Nat} (v : Byte) (h : b ≠ a) :
    memRead (m.set a v) b = memRead m b := by
  rw [memRead, memRead, Memory.get_set, if_neg h]

/-- A checked read of the address written gives the byte. -/
theorem memRead_set_self (m : Memory) {a : Nat} (v : Byte) (h : a ≤ 0xFFF) :
    memRead (m.set a v) a = .ok v := by
  rw [memRead_of_le h, Memory.get_set, if_pos rfl]

/-- Settles O43, by the three ranges of the address. -/
theorem memoryReadsTheLatestWrite : Obligations.MemoryReadsTheLatestWrite := by
  intro m a v
  refine ⟨fun habove => ?_, fun hglyph => ?_, fun hlo hhi => ?_⟩
  · exact ⟨memRead_of_gt habove, memWrite_of_gt v habove⟩
  · exact ⟨memRead_of_le (hglyph.trans (by decide)), memWrite_of_glyph v hglyph⟩
  · exact ⟨m.set a v, memWrite_of_writable v hlo hhi, memRead_set_self m v hhi,
      fun _ hne => memRead_set_of_ne m v hne, fun hm => Memory.wf_set hm v hlo hhi⟩

/-! ### The canonical form -/

theorem Memory.unlisted_of_lt (m : Memory) {a : Nat} (h : a < 80) :
    m.unlisted a = m.glyphs[a] := dif_pos h

/-- The glyph bytes of a memory in canonical form are what its glyph region reads as. -/
theorem Memory.glyphs_eq_of_get {m n : Memory} (hm : m.wf) (hn : n.wf)
    (h : ∀ a ≤ 0xFFF, m.get a = n.get a) : m.glyphs = n.glyphs :=
  Vector.ext fun a ha => by
    have hget := h a (by omega)
    rwa [Memory.get_of_not_writable hm (.inl ha), Memory.get_of_not_writable hn (.inl ha),
      Memory.unlisted_of_lt m ha, Memory.unlisted_of_lt n ha] at hget

/-- Settles O44: alike glyph regions have equal glyph bytes, so both memories read alike above 0xFFF
too, and the cells are determined by what every address reads as. -/
theorem memoriesThatReadAlikeAreEqual : Obligations.MemoriesThatReadAlikeAreEqual := by
  intro m n hm hn hget
  have hglyphs := Memory.glyphs_eq_of_get hm hn hget
  have hunlisted : m.unlisted = n.unlisted :=
    funext fun a => by simp only [Memory.unlisted, hglyphs]
  have hall : ∀ a, m.get a = n.get a := fun a => by
    obtain ha | ha := Nat.lt_or_ge 0xFFF a
    · rw [Memory.get_of_not_writable hm (.inr ha), Memory.get_of_not_writable hn (.inr ha),
        hunlisted]
    · exact hget a ha
  have hcells : m.cells = n.cells := by
    obtain ⟨hsortedM, hlistedM⟩ := hm
    obtain ⟨hsortedN, hlistedN⟩ := hn
    refine cells_eq_of_lookup (f := m.unlisted) hsortedM hsortedN (fun c hc => ?_) (fun c hc => ?_)
      (fun a => by simpa only [Memory.get, ← hunlisted] using hall a)
    · obtain ⟨_, _, hne⟩ := hlistedM c hc
      exact hne
    · obtain ⟨_, _, hne⟩ := hlistedN c hc
      exact hunlisted ▸ hne
  cases m
  cases n
  exact congr (congrArg Memory.mk hglyphs) hcells

end Sys2Proof.Machine

/-! SUPPORT. The words and the instructions they hold, in both directions, and the proofs of the
statements about the encoding (30_encoding.md). -/

namespace Sys2Proof

/-! ### From an instruction to its word and back -/

/-- Settles O1, by the form of the word: each field read back is the operand written. -/
theorem decodeOfEncodeIsTheInstruction : Obligations.DecodeOfEncodeIsTheInstruction := by
  intro i hwf
  cases i with
  | cls | ret => rfl
  | jp nnn | call nnn | ldI nnn | jpV0 nnn =>
    have h : nnn.toNat ≤ 0xFFF := of_decide_eq_true hwf
    simp [encode, decode, fieldFamily_wordNNN, fieldNNN_wordNNN, h]
  | seImm | sneImm | ldImm | addImm | rnd =>
    simp [encode, decode, fieldFamily_wordXNN, fieldX_wordXNN, fieldNN_wordXNN]
  | seReg | ldReg | orReg | andReg | xorReg | addReg | subReg | shr | subn | shl | sneReg =>
    simp [encode, decode, decodeFamily5, decodeFamily8, decodeFamily9, fieldFamily_wordXYN,
      fieldX_wordXYN, fieldY_wordXYN, fieldN_wordXYN]
  | drw x y n =>
    have h : n ≤ 15 := of_decide_eq_true hwf
    simp [encode, decode, fieldFamily_wordXYN, fieldX_wordXYN, fieldY_wordXYN, fieldN_wordXYN, h]
  | skp | sknp | ldVxDt | ldVxK | ldDtVx | ldStVx | addI | ldF | ldB | ldMemVx | ldVxMem =>
    simp [encode, decode, decodeFamilyE, decodeFamilyF, fieldFamily_wordXNN, fieldX_wordXNN,
      lowField_wordXNN]

/-! ### A word put together from its own fields -/

section
variable {w : Word} {f n : Nat} {i : Instr}

theorem wordNNN_fields (hf : fieldFamily w = f) : wordNNN f (fieldNNN w) = w := by
  rw [fieldFamily_eq] at hf
  apply BitVec.eq_of_toNat_eq
  rw [wordNNN, BitVec.toNat_ofNat, fieldNNN_toNat]
  omega

theorem wordXNN_lowField {nn : Byte} (hf : fieldFamily w = f) (hn : bitField w 7 0 = nn.toNat) :
    wordXNN f (fieldX w) nn = w := by
  rw [fieldFamily_eq] at hf
  rw [lowField_eq] at hn
  apply BitVec.eq_of_toNat_eq
  rw [wordXNN, BitVec.toNat_ofNat, fieldX_val]
  omega

theorem wordXNN_fields (hf : fieldFamily w = f) : wordXNN f (fieldX w) (fieldNN w) = w :=
  wordXNN_lowField hf (by rw [fieldNN_toNat, lowField_eq])

theorem wordXYN_fields (hf : fieldFamily w = f) (hn : fieldN w = n) :
    wordXYN f (fieldX w) (fieldY w) n = w := by
  rw [fieldFamily_eq] at hf
  rw [fieldN_eq] at hn
  apply BitVec.eq_of_toNat_eq
  rw [wordXYN, BitVec.toNat_ofNat, fieldX_val, fieldY_val]
  omega

/-! ### The families that dispatch further, encoded again -/

theorem encode_of_decodeFamily0 (h : decodeFamily0 w = .ok i) : encode i = w := by
  unfold decodeFamily0 at h
  split at h <;> cases h
  all_goals exact (BitVec.eq_of_toNat_eq ‹_›).symm

theorem encode_of_decodeFamily5 (hf : fieldFamily w = 0x5) (h : decodeFamily5 w = .ok i) :
    encode i = w := by
  unfold decodeFamily5 at h
  split at h <;> cases h
  exact wordXYN_fields hf ‹_›

theorem encode_of_decodeFamily8 (hf : fieldFamily w = 0x8) (h : decodeFamily8 w = .ok i) :
    encode i = w := by
  unfold decodeFamily8 at h
  split at h <;> cases h
  all_goals exact wordXYN_fields hf ‹_›

theorem encode_of_decodeFamily9 (hf : fieldFamily w = 0x9) (h : decodeFamily9 w = .ok i) :
    encode i = w := by
  unfold decodeFamily9 at h
  split at h <;> cases h
  exact wordXYN_fields hf ‹_›

theorem encode_of_decodeFamilyE (hf : fieldFamily w = 0xE) (h : decodeFamilyE w = .ok i) :
    encode i = w := by
  unfold decodeFamilyE at h
  split at h <;> cases h
  all_goals exact wordXNN_lowField hf ‹_›

theorem encode_of_decodeFamilyF (hf : fieldFamily w = 0xF) (h : decodeFamilyF w = .ok i) :
    encode i = w := by
  unfold decodeFamilyF at h
  split at h <;> cases h
  all_goals exact wordXNN_lowField hf ‹_›

/-- A word that decodes is the word of its instruction. -/
theorem encode_of_decode (h : decode w = .ok i) : encode i = w := by
  unfold decode at h
  split at h
  case h_1 => exact encode_of_decodeFamily0 h
  case h_6 hf => exact encode_of_decodeFamily5 hf h
  case h_9 hf => exact encode_of_decodeFamily8 hf h
  case h_10 hf => exact encode_of_decodeFamily9 hf h
  case h_15 hf => exact encode_of_decodeFamilyE hf h
  case h_16 hf => exact encode_of_decodeFamilyF hf h
  all_goals cases h
  case h_2 hf | h_3 hf | h_11 hf | h_12 hf => exact wordNNN_fields hf
  case h_14 hf => exact wordXYN_fields hf rfl
  all_goals exact wordXNN_fields ‹_›

end

/-- Settles O2: a decoded instruction fits its word and is put together from the word's fields. -/
theorem encodeOfDecodeIsTheWord : Obligations.EncodeOfDecodeIsTheWord :=
  fun _ _ h => ⟨wf_of_decode h, encode_of_decode h⟩

/-! ### The opcode map -/

section
open Laws.FitsRow

/-- The word of every well-formed instruction is a word of its row (R94). -/
theorem encode_fitsRow (i : Instr) : Statement i :=
  Instr.rec (motive := Statement) cls ret jp call seImm sneImm seReg ldImm addImm
    ldReg orReg andReg xorReg addReg subReg shr subn shl sneReg ldI jpV0 rnd drw skp sknp
    ldVxDt ldVxK ldDtVx ldStVx addI ldF ldB ldMemVx ldVxMem i

end

/-- Each row of the map is the row of an instruction. -/
theorem exists_row_eq_of_mem_opcodeMap : ∀ r ∈ opcodeMap, ∃ i : Instr, i.row = r := by
  simp only [opcodeMap, List.forall_mem_append, List.forall_mem_cons, List.not_mem_nil,
    IsEmpty.forall_iff, implies_true, and_true]
  and_intros <;> exact ⟨_, rfl⟩

section
variable {w p : Word}

theorem fieldFamily_of_mask_F000 (h : w &&& 0xF000 = p) : fieldFamily w = p.toNat / 4096 := by
  have := and_mask_F000 w
  rw [h] at this
  rw [fieldFamily_eq]
  omega

theorem fields_of_mask_F00F (h : w &&& 0xF00F = p) :
    fieldFamily w = p.toNat / 4096 ∧ fieldN w = p.toNat % 16 := by
  have := and_mask_F00F w
  rw [h] at this
  rw [fieldFamily_eq, fieldN_eq]
  omega

theorem fields_of_mask_F0FF (h : w &&& 0xF0FF = p) :
    fieldFamily w = p.toNat / 4096 ∧ bitField w 7 0 = p.toNat % 256 := by
  have := and_mask_F0FF w
  rw [h] at this
  rw [fieldFamily_eq, lowField_eq]
  omega

/-- A word of an instruction's row decodes to an instruction of that row: the mask fixes the fields
the decoder dispatches on. -/
theorem decode_of_fitsRow (i : Instr) (h : w &&& i.row.mask = i.row.pattern) :
    ∃ j, decode w = .ok j ∧ j.row = i.row := by
  cases i with
  | cls | ret =>
    obtain rfl := (BitVec.and_allOnes (x := w)).symm.trans h
    exact ⟨_, rfl, rfl⟩
  | jp | call | seImm | sneImm | ldImm | addImm | ldI | jpV0 | rnd | drw =>
    have hf := fieldFamily_of_mask_F000 h
    simp [decode, hf, Instr.row]
  | seReg | ldReg | orReg | andReg | xorReg | addReg | subReg | shr | subn | shl | sneReg =>
    obtain ⟨hf, hn⟩ := fields_of_mask_F00F h
    simp [decode, decodeFamily5, decodeFamily8, decodeFamily9, hf, hn, Instr.row]
  | skp | sknp | ldVxDt | ldVxK | ldDtVx | ldStVx | addI | ldF | ldB | ldMemVx | ldVxMem =>
    obtain ⟨hf, hn⟩ := fields_of_mask_F0FF h
    simp [decode, decodeFamilyE, decodeFamilyF, hf, hn, Instr.row]

end

/-- Settles O3: a decoded word is the word of its instruction, which is a word of its row; and the
mask of a row fixes the fields the decoder dispatches on. -/
theorem decodeFollowsTheOpcodeMap : Obligations.DecodeFollowsTheOpcodeMap := by
  refine ⟨rfl, fun w => ⟨fun i h => ⟨row_mem_opcodeMap i, ?_⟩, fun r hr h => ?_⟩⟩
  · have hfits := encode_fitsRow i (wf_of_decode h)
    rwa [encode_of_decode h] at hfits
  · obtain ⟨i, rfl⟩ := exists_row_eq_of_mem_opcodeMap r hr
    exact decode_of_fitsRow i h

/-- Settles O4: a word decodes to an instruction of each row it matches, and to one only. -/
theorem opcodeRowsAreDisjoint : Obligations.OpcodeRowsAreDisjoint := by
  intro w r hr q hq hwr hwq
  obtain ⟨-, hmap⟩ := decodeFollowsTheOpcodeMap
  obtain ⟨-, hmatch⟩ := hmap w
  obtain ⟨i, hi, rfl⟩ := hmatch r hr hwr
  obtain ⟨j, hj, rfl⟩ := hmatch q hq hwq
  obtain rfl : i = j := Except.ok.inj (hi.symm.trans hj)
  rfl

/-! ### The unknown words -/

section
variable (w : Word)

theorem fieldFamily_lt : fieldFamily w < 16 := by
  rw [fieldFamily_eq]
  omega

theorem decodeFamily0_eq_error_iff :
    decodeFamily0 w = .error (.unknownOpcode w) ↔ w ≠ 0x00E0 ∧ w ≠ 0x00EE := by
  simp only [ne_eq, ← BitVec.toNat_inj]
  unfold decodeFamily0
  split <;> simp_all

theorem decodeFamily5_eq_error_iff :
    decodeFamily5 w = .error (.unknownOpcode w) ↔ w.toNat % 16 ≠ 0 := by
  rw [← fieldN_eq]
  unfold decodeFamily5
  split <;> simp_all

theorem decodeFamily8_eq_error_iff : decodeFamily8 w = .error (.unknownOpcode w) ↔
    w.toNat % 16 ∈ [0x8, 0x9, 0xA, 0xB, 0xC, 0xD, 0xF] := by
  have hlt : w.toNat % 16 < 16 := Nat.mod_lt _ (by decide)
  rw [← fieldN_eq] at hlt ⊢
  unfold decodeFamily8
  split <;> simp_all
  omega

theorem decodeFamily9_eq_error_iff :
    decodeFamily9 w = .error (.unknownOpcode w) ↔ w.toNat % 16 ≠ 0 := by
  rw [← fieldN_eq]
  unfold decodeFamily9
  split <;> simp_all

theorem decodeFamilyE_eq_error_iff :
    decodeFamilyE w = .error (.unknownOpcode w) ↔ w.toNat % 256 ∉ [0x9E, 0xA1] := by
  rw [← lowField_eq]
  unfold decodeFamilyE
  split <;> simp_all

theorem decodeFamilyF_eq_error_iff : decodeFamilyF w = .error (.unknownOpcode w) ↔
    w.toNat % 256 ∉ [0x07, 0x0A, 0x15, 0x18, 0x1E, 0x29, 0x33, 0x55, 0x65] := by
  rw [← lowField_eq]
  unfold decodeFamilyF
  split <;> simp_all

end

/-- Settles O5, family by family: a word is unknown where its family's dispatch has no arm. -/
theorem unknownWordsAreTheListedOnes : Obligations.UnknownWordsAreTheListedOnes := by
  intro w
  have hlt := fieldFamily_lt w
  rw [← fieldFamily_eq]
  unfold decode
  interval_cases fieldFamily w
  all_goals simp [decodeFamily0_eq_error_iff, decodeFamily5_eq_error_iff,
    decodeFamily8_eq_error_iff, decodeFamily9_eq_error_iff, decodeFamilyE_eq_error_iff,
    decodeFamilyF_eq_error_iff]

/-- Settles O6, by running the decoder on each word. -/
theorem sampleWordsDecode : Obligations.SampleWordsDecode := by
  unfold Obligations.SampleWordsDecode
  decide

end Sys2Proof

/-! SUPPORT. The cycle, clause by clause, and the proofs of the statements about it (40_cycle.md). -/

namespace Sys2Proof.Machine

/-! ### The fetch -/

theorem fetchWord_of_le {s : State} (h : s.pc.toNat + 1 ≤ 0xFFF) :
    fetchWord s = .ok (wordOfBytes (s.mem.get s.pc.toNat) (s.mem.get (s.pc.toNat + 1))) :=
  if_neg (by omega)

theorem fetchWord_of_gt {s : State} (h : 0xFFF < s.pc.toNat + 1) :
    fetchWord s = .error (.outOfBounds .fetch (s.pc.toNat + 1)) := if_pos h

theorem fetchedWord_of_gt {s : State} (h : 0xFFF < s.pc.toNat + 1) : fetchedWord s = none := by
  rw [fetchedWord, fetchWord_of_gt h]

theorem pc_le_of_fetchWord {s : State} {w : Word} (h : fetchWord s = .ok w) :
    s.pc.toNat + 1 ≤ 0xFFF := by
  obtain ⟨hpc, _⟩ | ⟨_, herr, _⟩ := fetchWord_cases s
  · exact hpc
  · cases herr.symm.trans h

/-- A step whose fetch fails takes that fatal error. -/
theorem step_of_fetchWord_error {s : State} {e : FatalKind} (hs : s.fault = none)
    (hf : fetchWord s = .error e) : step s = .next (s.latched e (fetchedWord s)) := by
  simp only [step, hs, cycle, hf, raise_eq]

/-- Settles O8: the two sides of the last fetchable address. -/
theorem fetchReadsTwoBytesOrRaises : Obligations.FetchReadsTwoBytesOrRaises := by
  intro s
  refine ⟨fun hle => ⟨_, fetchWord_of_le hle, wordOfBytes_toNat _ _⟩, fun hgt hs => ?_⟩
  rw [step_of_fetchWord_error hs (fetchWord_of_gt hgt), fetchedWord_of_gt hgt]

/-- Settles O10: the latch is checked before the cycle begins. -/
theorem latchedMachineReturnsItsRecord : Obligations.LatchedMachineReturnsItsRecord :=
  fun _ _ => step_of_fault

/-! ### How an instruction ends -/

section Ending

variable {s t : State} {i : Instr}

/-- With the latch clear before it, an instruction that leaves the latch set took a fatal error, and
did nothing else (R126). -/
theorem exec_of_raised (hs : s.fault = none) (h : exec i s = .next t) (ht : t.fault ≠ none) :
    ∃ e, t = s.latched e (fetchedWord s) :=
  (exec_cases h).resolve_right fun hkept => ht (hkept.trans hs)

/-- A blocked instruction did nothing at all (R235). -/
theorem exec_of_blocked (h : exec i s = .next t) (hb : blocked i s = true) : t = s := by
  cases i
  case ldVxK x =>
    obtain ⟨_, rfl⟩ | ⟨k, hk, _⟩ := exec_ldVxK_next h
    · rfl
    · simp [blocked, hk] at hb
  all_goals cases hb

/-- An instruction that raised or blocked left both timers alone. -/
theorem exec_timers_of_not_completed (hs : s.fault = none) (h : exec i s = .next t)
    (hend : t.fault ≠ none ∨ blocked i s = true) : t.dt = s.dt ∧ t.st = s.st := by
  obtain hraised | hb := hend
  · obtain ⟨e, rfl⟩ := exec_of_raised hs h hraised
    exact ⟨rfl, rfl⟩
  · rw [exec_of_blocked h hb]
    exact ⟨rfl, rfl⟩

/-- An instruction that may raise and leaves the latch clear made its writes. -/
theorem commit_map_of_clear {α : Type} {r : Except FatalKind α} {f : α → State}
    (h : commit s (r.map f) = .next t) (ht : t.fault = none) : ∃ a, r = .ok a ∧ t = f a := by
  obtain ⟨_, _, rfl⟩ | hok := commit_map_next h
  · cases ht
  · exact hok

end Ending

/-! ### The step of a decoded instruction -/

section DecodedStep

variable {s t : State} {w : Word} {i : Instr}

theorem step_of_completed (hs : s.fault = none) (hf : fetchWord s = .ok w)
    (hd : decode w = .ok i) (he : exec i s = .next t) (ht : t.fault = none)
    (hb : blocked i s = false) : step s = .next t.tick := by
  rw [step_of_decode hs hf hd he, ht, hb]
  rfl

theorem step_of_not_completed (hs : s.fault = none) (hf : fetchWord s = .ok w)
    (hd : decode w = .ok i) (he : exec i s = .next t)
    (hend : t.fault ≠ none ∨ blocked i s = true) : step s = .next t := by
  have hstop : (t.fault.isSome || blocked i s) = true := by
    rwa [Bool.or_eq_true, Option.isSome_iff_ne_none]
  rw [step_of_decode hs hf hd he, if_pos hstop]

/-- A step whose word decodes leaves PC and the latch as the instruction does: the tick touches
neither. -/
theorem exists_exec_of_step (hf : fetchWord s = .ok w) (hd : decode w = .ok i)
    (h : step s = .next t) : ∃ u, exec i s = .next u ∧ t.pc = u.pc ∧ t.fault = u.fault := by
  obtain ⟨hs, _⟩ := step_cases h
  obtain ⟨u, hu⟩ := exec_next i s
  cases (step_of_decode hs hf hd hu).symm.trans h
  refine ⟨u, hu, ?_⟩
  split
  · exact ⟨rfl, rfl⟩
  · exact ⟨rfl, rfl⟩

end DecodedStep

/-- Settles O7: a fetch succeeds there, and the step ends with or without the tick. -/
theorem stepRunsTheDecodedInstruction : Obligations.StepRunsTheDecodedInstruction := by
  intro s t i hs hpc hd he
  have hf := fetchWord_of_le hpc
  exact ⟨fun ⟨ht, hb⟩ => step_of_completed hs hf hd he ht hb, step_of_not_completed hs hf hd he⟩

/-! ### Fatal errors -/

/-- A step that leaves the latch set began with it clear and only took a fatal error, whichever of
fetch, decode and execute raised it. -/
theorem step_of_raised {s t : State} (h : step s = .next t) (ht : t.fault ≠ none) :
    s.fault = none ∧ ∃ e, t = s.latched e (fetchedWord s) := by
  obtain ⟨hs, ⟨_, hw, rfl⟩ | ⟨w, hf, _, rfl⟩ | ⟨w, i, u, hf, hd, he, _⟩⟩ := step_cases h
  · exact ⟨hs, _, by rw [hw]⟩
  · exact ⟨hs, _, by rw [fetchedWord_of_ok hf]⟩
  · obtain ⟨u', he', _, hfault⟩ := exists_exec_of_step hf hd h
    cases he.symm.trans he'
    have hu : u.fault ≠ none := hfault ▸ ht
    cases (step_of_not_completed hs hf hd he (.inl hu)).symm.trans h
    exact ⟨hs, exec_of_raised hs he hu⟩

/-- Settles O11, by `step_of_raised`: the record's word is what a fetch at PC gives. -/
theorem fatalErrorsArePrecise : Obligations.FatalErrorsArePrecise := by
  intro s t r h hr
  obtain ⟨hs, e, rfl⟩ := step_of_raised h (by simp [hr])
  cases hr
  exact ⟨rfl, hs, rfl, fun _ hw => fetchedWord_of_ok hw, fetchedWord_of_gt⟩

/-! ### The timers -/

theorem onlyChanges_tick (s : State) :
    OnlyChanges (fun p => p = .delay ∨ p = .sound) s s.tick :=
  ((onlyChanges_setDelay s (tickDown s.dt)).mono fun _ => .inl).andThen
    (onlyChanges_setSound _ (tickDown s.st)) (.inr rfl)

/-- Settles O15: a completed instruction's step ends in the tick, any other's in the instruction's
own state. -/
theorem timersTickAfterCompletedInstructions :
    Obligations.TimersTickAfterCompletedInstructions := by
  intro s t w i hs hf hd he
  by_cases hend : t.fault ≠ none ∨ blocked i s = true
  · refine ⟨t, step_of_not_completed hs hf hd he hend, fun ht hb => ?_,
      exec_timers_of_not_completed hs he⟩
    simp [ht, hb] at hend
  · have hcompleted : t.fault = none ∧ blocked i s = false := by simpa using hend
    obtain ⟨ht, hb⟩ := hcompleted
    exact ⟨t.tick, step_of_completed hs hf hd he ht hb,
      fun _ _ => ⟨tickDown_toNat _, tickDown_toNat _, onlyChanges_tick t⟩,
      fun hstop => absurd hstop hend⟩

/-- Settles O16: each of the three completes, so its step ends in the tick of what it wrote. -/
theorem timerWritesAreSeenOneTickLower : Obligations.TimerWritesAreSeenOneTickLower := by
  intro s w x hs hf
  refine ⟨fun hd => ?_, fun hd => ?_, fun hd => ?_⟩
  · exact ⟨_, step_of_completed hs hf hd rfl hs rfl, tickDown_toNat _⟩
  · exact ⟨_, step_of_completed hs hf hd rfl hs rfl, tickDown_toNat _⟩
  · exact ⟨_, step_of_completed hs hf hd rfl hs rfl, s.reg_setReg_self x s.dt, tickDown_toNat _⟩

/-! ### The program counter -/

section ProgramCounter

variable {s t : State} {i : Instr}

/-- A completed instruction other than a transfer moves PC as a skip does, and as one whose condition
fails where it is no skip (R125). -/
theorem exec_pc_eq_skipIf (h : exec i s = .next t) (ht : t.fault = none)
    (htransfer : i.isTransfer = false) (hb : blocked i s = false) :
    ∃ c, t.pc = (s.skipIf c).pc ∧ (i.isSkip = false → c = false) := by
  have hadvance : ∀ {α : Type} {r : Except FatalKind α} {f : α → State},
      commit s (r.map f) = .next t → (∀ a, (f a).pc = s.pc + 2) →
        ∃ c, t.pc = (s.skipIf c).pc ∧ (i.isSkip = false → c = false) := fun hr hf => by
    obtain ⟨a, _, rfl⟩ := commit_map_of_clear hr ht
    exact ⟨false, hf a, fun _ => rfl⟩
  cases i
  case ret | jp | call | jpV0 => cases htransfer
  case seImm | sneImm | seReg | sneReg => cases h; exact ⟨_, rfl, nofun⟩
  case skp x =>
    obtain ⟨k, _, rfl⟩ := commit_map_of_clear ((exec_skp x s).symm.trans h) ht
    exact ⟨_, rfl, nofun⟩
  case sknp x =>
    obtain ⟨k, _, rfl⟩ := commit_map_of_clear ((exec_sknp x s).symm.trans h) ht
    exact ⟨_, rfl, nofun⟩
  case drw x y n => exact hadvance ((exec_drw x y n s).symm.trans h) fun _ => rfl
  case ldB x => exact hadvance ((exec_ldB x s).symm.trans h) fun _ => rfl
  case ldMemVx x => exact hadvance ((exec_ldMemVx x s).symm.trans h) fun _ => rfl
  case ldVxMem x => exact hadvance ((exec_ldVxMem x s).symm.trans h) fun _ => rfl
  case ldVxK x =>
    obtain ⟨hnone, _⟩ | ⟨_, _, rfl⟩ := exec_ldVxK_next h
    · simp [blocked, hnone] at hb
    · exact ⟨false, rfl, fun _ => rfl⟩
  all_goals cases h; exact ⟨false, rfl, fun _ => rfl⟩

/-- A completed transfer whose operand fits leads into the range of R28, but for the return, whose
target is a stack entry. -/
theorem exec_pc_le_of_transfer (h : exec i s = .next t) (ht : t.fault = none)
    (hwf : i.wf = true) (htransfer : i.isTransfer = true) : t.pc.toNat ≤ 0x10FE ∨ i = .ret := by
  have htarget : ∀ {nnn : Word}, Instr.addressFits nnn = true → nnn.toNat ≤ 0xFFF :=
    of_decide_eq_true
  cases i
  case ret => exact .inr rfl
  case jp nnn => cases h; exact .inl ((htarget hwf).trans (by decide))
  case jpV0 nnn => cases h; exact .inl (jumpTarget_toNat_le (htarget hwf) _)
  case call nnn =>
    obtain ⟨_, _, rfl⟩ := commit_map_of_clear ((exec_call nnn s).symm.trans h) ht
    exact .inl ((htarget hwf).trans (by decide))
  all_goals cases htransfer

theorem Instr.isTransfer_of_isSkip (h : i.isSkip = true) : i.isTransfer = false := by
  cases i
  case seImm | sneImm | seReg | sneReg | skp | sknp => rfl
  all_goals cases h

theorem blocked_of_isSkip (s : State) (h : i.isSkip = true) : blocked i s = false := by
  cases i
  case seImm | sneImm | seReg | sneReg | skp | sknp => rfl
  all_goals cases h

end ProgramCounter

/-- Settles O17: PC after the step is PC after the instruction, and the sums of R125 are exact at a
PC a fetch succeeds at. -/
theorem programCounterMovesExactly : Obligations.ProgramCounterMovesExactly := by
  intro s t w i hf hd h ht
  have hpc := pc_le_of_fetchWord hf
  obtain ⟨u, he, htu, hfault⟩ := exists_exec_of_step hf hd h
  have hu : u.fault = none := hfault.symm.trans ht
  rw [htu]
  refine ⟨fun hskip htransfer hb => ?_, fun hskip => ?_,
    exec_pc_le_of_transfer he hu (wf_of_decode hd), fun hb => by rw [exec_of_blocked he hb]⟩
  · obtain ⟨c, hc, hfalse⟩ := exec_pc_eq_skipIf he hu htransfer hb
    rw [hc, hfalse hskip]
    exact State.skipIf_pc_toNat hpc false
  · obtain ⟨c, hc, _⟩ := exec_pc_eq_skipIf he hu (Instr.isTransfer_of_isSkip hskip)
      (blocked_of_isSkip s hskip)
    rw [hc, State.skipIf_pc_toNat hpc]
    cases c
    · exact .inl rfl
    · exact .inr rfl

end Sys2Proof.Machine

/-! SUPPORT. The proofs of the statements about jumps, skips and a call with its return
(41_flow.md). -/

namespace Sys2Proof.Machine

/-! ### A call and its return -/

/-- A part that has its old value again leaves the frame. -/
theorem OnlyChanges.erase {P : Part → Prop} {s t : State} {q : Part}
    (h : OnlyChanges (fun p => p = q ∨ P p) s t) (hq : q.same s t) : OnlyChanges P s t :=
  fun p hp => by
    by_cases hpq : p = q
    · exact hpq ▸ hq
    · exact h p (not_or.mpr ⟨hpq, hp⟩)

/-- Settles O36: the return pops the entry the call pushed (`callPushesTheReturnAddress`,
`returnPopsTheStack`), so SP has its old value again and leaves the joint frame. -/
theorem callThenReturnResumes : Obligations.CallThenReturnResumes := by
  intro s nnn hs
  obtain ⟨t, hcall, hentry, htsp, -, hst⟩ := (callPushesTheReturnAddress s nnn).1 hs
  obtain ⟨u, hret, hupc, husp, htu⟩ := (returnPopsTheStack t).1 (by omega)
  have hsp : u.sp = s.sp := Fin.ext (by omega)
  have hframe : OnlyChanges (fun p => p = .pc ∨ ∃ k, p = .stackEntry k ∧ k.val = s.sp.val) s u := by
    refine OnlyChanges.erase (q := .sp) ?_ hsp
    refine (hst.mono ?_).trans (htu.mono ?_)
    · rintro p (rfl | rfl | rfl)
      · exact .inr (.inr ⟨_, rfl, rfl⟩)
      · exact .inl rfl
      · exact .inr (.inl rfl)
    · exact fun _ => Or.imp_right .inl
  refine ⟨t, u, hcall, hret, ?_, hsp, fun k hk => ?_, hframe⟩
  · have hpop : t.sp.val - 1 = s.sp.val := by omega
    simpa only [hpop, hentry] using hupc
  · refine hframe (.stackEntry ⟨k, by omega⟩) ?_
    rintro (h | ⟨j, h, hj⟩) <;> cases h
    exact absurd hj hk.ne

/-! ### Skips -/

/-- An instruction that is `skipIf` of a test changes only PC: to `pc0 + 4` under `taken`, which
makes the test true, and to `pc0 + 2` under `passed`, which makes it false (R125). -/
theorem exists_next_of_exec_eq_skipIf {i : Instr} {s : State} {c : Bool} {taken passed : Prop}
    (hi : exec i s = .next (s.skipIf c)) (htaken : taken → c = true)
    (hpassed : passed → c = false) :
    ∃ t, exec i s = .next t ∧ OnlyChanges (· = .pc) s t ∧
      (taken → t.pc = s.pc + 4) ∧ (passed → t.pc = s.pc + 2) := by
  refine ⟨_, hi, onlyChanges_skipIf s c, fun h => ?_, fun h => ?_⟩
  · rw [htaken h]; rfl
  · rw [hpassed h]; rfl

/-- Settles O31: each skip is `skipIf` of `==` or `!=`, the Boolean test of its condition. -/
theorem skipsTestTheirCondition : Obligations.SkipsTestTheirCondition := fun _ _ _ _ =>
  ⟨exists_next_of_exec_eq_skipIf rfl beq_of_eq beq_false_of_ne,
    exists_next_of_exec_eq_skipIf rfl bne_iff_ne.mpr bne_eq_false_iff_eq.mpr,
    exists_next_of_exec_eq_skipIf rfl beq_of_eq beq_false_of_ne,
    exists_next_of_exec_eq_skipIf rfl bne_iff_ne.mpr bne_eq_false_iff_eq.mpr⟩

/-! ### Jumps -/

/-- Settles O32: the jump is `setPc`. -/
theorem jumpSetsTheProgramCounter : Obligations.JumpSetsTheProgramCounter :=
  fun s nnn => ⟨s.setPc nnn, rfl, s.setPc_pc nnn, onlyChanges_setPc s nnn⟩

/-- `NNN + V[0]` does not wrap for a 12-bit `NNN` (R147, D16). -/
theorem jumpTarget_toNat {nnn : Word} (h : nnn.toNat ≤ 0xFFF) (b : Byte) :
    (jumpTarget nnn b).toNat = nnn.toNat + b.toNat := by
  have hb := b.isLt
  rw [jumpTarget, BitVec.toNat_ofNat]
  omega

/-- Settles O33: the jump is `setPc` of the exact sum. -/
theorem jumpPlusV0IsTheExactSum : Obligations.JumpPlusV0IsTheExactSum := fun s _ h =>
  ⟨s.setPc _, rfl, jumpTarget_toNat h (s.reg 0), onlyChanges_setPc s _⟩

end Sys2Proof.Machine

/-! SUPPORT. The proofs of the statements about register loads, arithmetic, logic, shifts and the
random byte (42_alu.md). -/

namespace Sys2Proof.Machine

/-! ### How an ALU instruction ends -/

section Ending

variable {i : Instr} {s : State} {x : Reg} {b : Byte} {c : Bool} {value : State → Prop}

/-- An instruction that is `writeResult` of `b` leaves `b` in `V[X]`, goes on, and changes nothing
else: VF only as `V[X]` (R22). -/
theorem exists_next_of_exec_eq_writeResult (hi : exec i s = writeResult x b s)
    (hvalue : ∀ t, t.reg x = b → value t) :
    ∃ t, exec i s = .next t ∧ value t ∧ t.pc = s.pc + 2 ∧
      OnlyChanges (fun p => p = .reg x ∨ p = .pc) s t :=
  ⟨_, hi, hvalue _ (s.reg_setReg_self x b), rfl,
    (onlyChanges_writeResult rfl).mono fun _ => Or.symm⟩

/-- An instruction that is `writeResultFlag` leaves `b` in a `V[X]` other than VF, and the flag in
VF for every `X`: the flag is the last write (R10, R22). -/
theorem exists_next_of_exec_eq_writeResultFlag {flag : Byte}
    (hi : exec i s = writeResultFlag x b c s) (hvalue : ∀ t, t.reg x = b → value t)
    (hflag : flagByte c = flag) :
    ∃ t, exec i s = .next t ∧ (x ≠ vf → value t) ∧ t.reg vf = flag ∧ t.pc = s.pc + 2 ∧
      OnlyChanges (fun p => p = .reg x ∨ p = .reg vf ∨ p = .pc) s t := by
  refine ⟨_, hi, fun hx => hvalue _ ?_, ?_, rfl,
    (onlyChanges_writeResultFlag rfl).mono fun _ => or_rotate.mp⟩
  · exact (State.reg_setReg_other _ vf x _ hx).trans (s.reg_setReg_self x b)
  · exact (State.reg_setReg_self _ vf _).trans hflag

/-- The same with the flag told by its two cases: `set`, which makes it true, and `clear`, which
makes it false. -/
theorem exists_next_of_exec_eq_writeResultFlag_cases {set clear : Prop}
    (hi : exec i s = writeResultFlag x b c s) (hvalue : ∀ t, t.reg x = b → value t)
    (hset : set → c = true) (hclear : clear → c = false) :
    ∃ t, exec i s = .next t ∧ (x ≠ vf → value t) ∧ (set → t.reg vf = 1) ∧
      (clear → t.reg vf = 0) ∧ t.pc = s.pc + 2 ∧
      OnlyChanges (fun p => p = .reg x ∨ p = .reg vf ∨ p = .pc) s t := by
  obtain ⟨t, ht, hx, hvf, hrest⟩ := exists_next_of_exec_eq_writeResultFlag hi hvalue rfl
  refine ⟨t, ht, hx, fun h => ?_, fun h => ?_, hrest⟩
  · rw [hvf, hset h]; rfl
  · rw [hvf, hclear h]; rfl

end Ending

/-! ### The results and flags as operations on bytes -/

section Bytes

variable (a b : Byte)

/-- The difference cut to 8 bits is the subtraction of bytes (R167). -/
theorem difference_eq_sub : difference a b = a - b := by
  apply BitVec.eq_of_toNat_eq
  have hb := b.isLt
  rw [difference, BitVec.toNat_ofNat, BitVec.toNat_sub]
  congr 1
  omega

theorem trunc8_half_eq_ushiftRight : trunc8 (a.toNat / 2) = a >>> 1 := by
  apply BitVec.eq_of_toNat_eq
  have ha := a.isLt
  rw [BitVec.toNat_ofNat, BitVec.toNat_ushiftRight, Nat.shiftRight_eq_div_pow]
  omega

theorem trunc8_double_eq_shiftLeft : trunc8 (a.toNat * 2) = a <<< 1 := by
  apply BitVec.eq_of_toNat_eq
  rw [BitVec.toNat_ofNat, BitVec.toNat_shiftLeft, Nat.shiftLeft_eq]

/-- The flag of a right shift is the old bit 0 (R168). -/
theorem shiftedOutLow_eq_getLsbD : shiftedOutLow a = a.getLsbD 0 := by
  rw [shiftedOutLow, BitVec.getLsbD, Nat.testBit_zero]

/-- The flag of a left shift is the old bit 7 (R170). -/
theorem shiftedOutHigh_eq_getLsbD : shiftedOutHigh a = a.getLsbD 7 := by
  have ha := a.isLt
  rw [shiftedOutHigh, BitVec.getLsbD, Nat.testBit_eq_decide_div_mod_eq, decide_eq_decide]
  omega

/-- A right shift by one moves every bit one place down (R168). -/
theorem getLsbD_trunc8_half (k : Nat) : (trunc8 (a.toNat / 2)).getLsbD k = a.getLsbD (k + 1) := by
  rw [trunc8_half_eq_ushiftRight, BitVec.getLsbD_ushiftRight, Nat.add_comm]

/-- A left shift by one leaves 0 at the bottom (R170). -/
theorem getLsbD_trunc8_double_zero : (trunc8 (a.toNat * 2)).getLsbD 0 = false := by
  rw [trunc8_double_eq_shiftLeft, BitVec.getLsbD_shiftLeft]
  rfl

/-- A left shift by one moves every bit below bit 7 one place up (R170). -/
theorem getLsbD_trunc8_double_succ {k : Nat} (hk : k < 7) :
    (trunc8 (a.toNat * 2)).getLsbD (k + 1) = a.getLsbD k := by
  have hk8 : k + 1 < 8 := by omega
  rw [trunc8_double_eq_shiftLeft, BitVec.getLsbD_shiftLeft]
  simp [hk8]

end Bytes

/-! ### The statements -/

/-- Settles O24: both are `writeResult`. -/
theorem immediateLoadAndAdd : Obligations.ImmediateLoadAndAdd := fun _ _ _ =>
  ⟨exists_next_of_exec_eq_writeResult rfl fun _ h => h,
    exists_next_of_exec_eq_writeResult rfl fun _ h => h ▸ BitVec.toNat_ofNat _ 8⟩

/-- Settles O25: each is `writeResult`, and the logic operations act bit by bit. -/
theorem registerCopyAndLogic : Obligations.RegisterCopyAndLogic := fun _ _ _ =>
  ⟨exists_next_of_exec_eq_writeResult rfl fun _ h => h,
    exists_next_of_exec_eq_writeResult rfl fun _ h _ _ => h ▸ BitVec.getLsbD_or,
    exists_next_of_exec_eq_writeResult rfl fun _ h _ _ => h ▸ BitVec.getLsbD_and,
    exists_next_of_exec_eq_writeResult rfl fun _ h _ _ => h ▸ BitVec.getLsbD_xor⟩

/-- Settles O26: the flag is `carryOut`, the test of the exact sum. -/
theorem addWithCarry : Obligations.AddWithCarry := fun _ _ _ =>
  exists_next_of_exec_eq_writeResultFlag_cases rfl (fun _ h => h ▸ BitVec.toNat_ofNat _ 8)
    decide_eq_true (fun h => decide_eq_false h.not_gt)

/-- Settles O27: the flag is `notBorrow`, the unsigned comparison. -/
theorem subtractWithNotBorrow : Obligations.SubtractWithNotBorrow := fun _ _ _ =>
  exists_next_of_exec_eq_writeResultFlag_cases rfl (fun _ h => h.trans (difference_eq_sub _ _))
    decide_eq_true (fun h => decide_eq_false h.not_ge)

/-- Settles O28: as O27 with the operands swapped (R169). -/
theorem reverseSubtractWithNotBorrow : Obligations.ReverseSubtractWithNotBorrow := fun _ _ _ =>
  exists_next_of_exec_eq_writeResultFlag_cases rfl (fun _ h => h.trans (difference_eq_sub _ _))
    decide_eq_true (fun h => decide_eq_false h.not_ge)

/-- Settles O29: both are `writeResultFlag` of `V[X]` alone, and the flag is the bit shifted out. -/
theorem shiftByOne : Obligations.ShiftByOne := fun s x _ =>
  ⟨exists_next_of_exec_eq_writeResultFlag rfl
      (fun _ h k _ => h ▸ getLsbD_trunc8_half (s.reg x) k)
      (by rw [shiftedOutLow_eq_getLsbD]; rfl),
    exists_next_of_exec_eq_writeResultFlag rfl
      (fun _ h => h ▸ ⟨getLsbD_trunc8_double_zero (s.reg x),
        fun _ hk => getLsbD_trunc8_double_succ (s.reg x) hk⟩)
      (by rw [shiftedOutHigh_eq_getLsbD]; rfl)⟩

/-- Supplying the free byte changes the model's own field alone (assumption 2). -/
theorem onlyChanges_supplyRnd (s : State) (b : Byte) :
    OnlyChanges (· = .rnd) s (s.supplyRnd b) := fun p hp => by
  cases p
  case rnd => exact absurd rfl hp
  all_goals rfl

/-- Settles O30: `writeResult` of the supplied byte under the mask, once that byte is taken. -/
theorem randomByteUnderMask : Obligations.RandomByteUnderMask := by
  intro s b x nn
  refine ⟨_, rfl, fun k _ => ?_, rfl, ?_⟩
  · exact (congrArg (·.getLsbD k) (State.reg_setReg_self _ x (b &&& nn))).trans BitVec.getLsbD_and
  · refine ((onlyChanges_supplyRnd s b).mono ?_).trans
      ((onlyChanges_exec (i := .rnd x nn) rfl).mono ?_)
    · exact fun _ hp => .inr (.inr (.inl hp))
    · exact fun _ => or_left_comm.mp

end Sys2Proof.Machine

/-! SUPPORT. The proofs of the statements about the index register and its loads and stores
(43_index_memory.md). -/

namespace Sys2Proof.Machine

/-! ### The index register -/

/-- The product of a byte by 5 fits 16 bits: no mask, no wrap (R192, D8). -/
theorem glyphAddress_toNat (b : Byte) : (glyphAddress b).toNat = b.toNat * 5 := by
  have hb := b.isLt
  rw [glyphAddress, BitVec.toNat_ofNat]
  omega

/-- Settles O37: `ANNN` is `setIndex`. -/
theorem loadIndex : Obligations.LoadIndex := fun _ _ =>
  ⟨_, rfl, rfl, rfl, (onlyChanges_exec (i := .ldI _) rfl).mono fun _ => Or.symm⟩

/-- Settles O38: `FX29` is `setIndex` of the exact product. -/
theorem pointIndexAtGlyph : Obligations.PointIndexAtGlyph := fun s x =>
  ⟨_, rfl, glyphAddress_toNat (s.reg x), rfl,
    (onlyChanges_exec (i := .ldF x) rfl).mono fun _ => Or.symm⟩

/-- Settles O39: the flag is `indexOverflow`, the test of the exact sum, and it is the last register
write (R22). -/
theorem indexAddWithOverflowFlag : Obligations.IndexAddWithOverflowFlag := by
  intro s x
  have hflag : ∀ t : State, (t.setFlag (indexOverflow s.i (s.reg x))).reg vf =
      flagByte (indexOverflow s.i (s.reg x)) := fun t => t.reg_setReg_self vf _
  refine ⟨_, rfl, BitVec.toNat_ofNat _ 16, fun hset => ?_, fun hclear => ?_, rfl,
    (onlyChanges_exec (i := .addI x) rfl).mono fun _ => or_rotate.mp⟩
  · exact (hflag _).trans (congrArg flagByte (decide_eq_true hset))
  · exact (hflag _).trans (congrArg flagByte (decide_eq_false hclear.not_gt))

/-! ### A store at the index -/

@[simp] theorem State.indexed_zero (s : State) : s.indexed 0 = s.i.toNat := rfl

section StoreAtIndex

variable {s : State} {bs : List Byte} {n : Nat}

/-- `n + 1` bytes that all go to writable addresses are stored from `I` up, and nothing but PC
changes besides (R193, R194). -/
theorem storeAtIndex_of_writable (hlen : bs.length = n + 1) (hlo : 0x050 ≤ s.i.toNat)
    (hhi : s.i.toNat + n ≤ 0xFFF) :
    ∃ t, storeAtIndex bs s = .next t ∧
      (∀ k (hk : k < bs.length), t.mem.get (s.i.toNat + k) = bs[k]) ∧ t.pc = s.pc + 2 ∧
      OnlyChanges (fun p => p = .pc ∨ ∃ k ≤ n, p = .byte (s.i.toNat + k)) s t := by
  obtain ⟨m, hstore, _, _, hget⟩ := storeBytes_of_le bs s.mem s.i.toNat hlo (by omega)
  refine ⟨(s.setMem m).advance, by rw [storeAtIndex_eq, State.indexed_zero, hstore]; rfl,
    fun k hk => ?_, rfl, ?_⟩
  · rw [State.advance_mem, State.setMem_mem, hget, dif_pos (by omega)]
    simp
  · refine ((onlyChanges_setMem_of_storeBytes hstore).mono ?_).andThen
      (onlyChanges_advance _) (.inl rfl)
    rintro _ ⟨k, hk, rfl⟩
    exact .inr ⟨k, by omega, rfl⟩

/-- Bytes that begin in the glyph region: the first address is reported (R64, R257). -/
theorem storeAtIndex_of_glyph (hlen : bs.length = n + 1) (h : s.i.toNat ≤ 0x04F) :
    storeAtIndex bs s =
      .next (s.latched (.outOfBounds .glyphWrite s.i.toNat) (fetchedWord s)) := by
  rw [storeAtIndex_eq, State.indexed_zero,
    storeBytes_of_glyph bs s.mem _ (List.ne_nil_of_length_eq_add_one hlen) h]
  rfl

/-- Bytes that run beyond memory: the first address above 0xFFF is reported (R67, R257). -/
theorem storeAtIndex_of_gt (hlen : bs.length = n + 1) (hlo : 0x050 ≤ s.i.toNat)
    (h : 0xFFF < s.i.toNat + n) :
    storeAtIndex bs s =
      .next (s.latched (.outOfBounds .write (max s.i.toNat 0x1000)) (fetchedWord s)) := by
  rw [storeAtIndex_eq, State.indexed_zero,
    storeBytes_of_gt bs s.mem _ (List.ne_nil_of_length_eq_add_one hlen) hlo (by omega)]
  rfl

end StoreAtIndex

/-- `trunc8` cuts nothing from a number below 256 (R8). -/
theorem toNat_trunc8_of_lt {d : Nat} (hd : d < 256) : (trunc8 d).toNat = d :=
  (BitVec.toNat_ofNat d 8).trans (Nat.mod_eq_of_lt hd)

/-- Settles O40: `FX33` is `storeAtIndex` of the three digits, and a digit fits a byte. -/
theorem bcdStore : Obligations.BcdStore := by
  intro s x
  have hlen : (bcdDigits (s.reg x)).length = 2 + 1 := rfl
  have hbyte : (s.reg x).toNat < 256 := (s.reg x).isLt
  refine ⟨fun hlo hhi => ?_, storeAtIndex_of_glyph hlen,
    fun h => storeAtIndex_of_gt hlen (by omega) h⟩
  obtain ⟨t, ht, hget, hpc, hframe⟩ := storeAtIndex_of_writable hlen hlo hhi
  have hdigit : ∀ {k d : Nat} (hk : k < 3), (bcdDigits (s.reg x))[k] = trunc8 d → d < 256 →
      (t.mem.get (s.i.toNat + k)).toNat = d := fun hk hd hlt => by
    rw [hget _ hk, hd, toNat_trunc8_of_lt hlt]
  exact ⟨t, ht, hdigit (by decide : 0 < 3) rfl (by omega), hdigit (by decide) rfl (by omega),
    hdigit (by decide) rfl (by omega), hpc, hframe⟩

/-- Settles O41: `FX55` is `storeAtIndex` of `V[0]` to `V[X]`. -/
theorem registerBlockStore : Obligations.RegisterBlockStore := by
  intro s x
  have hlen := s.length_regsUpTo x
  refine ⟨fun hlo hhi => ?_, storeAtIndex_of_glyph hlen,
    fun h => storeAtIndex_of_gt hlen (by omega) h⟩
  obtain ⟨t, ht, hget, hpc, hframe⟩ := storeAtIndex_of_writable hlen hlo hhi
  refine ⟨t, ht, fun r hr => ?_, hpc, hframe⟩
  have hlt : r.val < (s.regsUpTo x).length := (Nat.lt_succ_of_le hr).trans_eq hlen.symm
  exact (hget r hlt).trans (s.getElem_regsUpTo x r hlt)

/-! ### A load at the index -/

/-- Settles O42: `FX65` is `setRegs` of the bytes from `I` up, all of them or none. -/
theorem registerBlockLoad : Obligations.RegisterBlockLoad := by
  intro s x
  refine ⟨fun hhi => ?_, fun h => ?_⟩
  · have hnext : exec (.ldVxMem x) s = .next (s.setRegs
        ((List.range (x.val + 1)).map fun k => s.mem.get (s.i.toNat + k))).advance := by
      rw [exec_ldVxMem, State.indexed_zero, loadBytes_of_le s.mem _ _ (by omega)]
      rfl
    refine ⟨_, hnext, fun r hr => ?_, rfl, OnlyChanges.erase (q := .fault)
      ((onlyChanges_ldVxMem hnext).mono fun _ => or_left_comm.mp) rfl⟩
    have hlt : r.val < x.val + 1 := Nat.lt_succ_of_le hr
    rw [State.reg_advance, State.reg_setRegs, dif_pos (by simpa using hlt)]
    simp
  · rw [exec_ldVxMem, State.indexed_zero,
      loadBytes_of_gt s.mem _ _ x.val.succ_pos (by omega)]
    rfl

end Sys2Proof.Machine

/-! SUPPORT. The proofs of the statements about the display (44_display.md). -/

namespace Sys2Proof.Machine

/-! ### The clear screen -/

theorem fbClear_getElem {p : Nat} (h : p < 2048) : fbClear[p] = false := Vector.getElem_replicate h

/-- Settles O45: `00E0` is `setScreen` of the clear framebuffer. -/
theorem clearScreen : Obligations.ClearScreen := fun _ =>
  ⟨_, rfl, fun _ => fbClear_getElem, rfl, rfl, onlyChanges_exec (i := .cls) rfl⟩

/-! ### One draw -/

/-- The parts that a completed `DXYN` may change. -/
def drawParts (p : Part) : Prop := p = .pc ∨ p = .reg vf ∨ p = .redraw ∨ ∃ q, p = .pixel q

theorem flagByte_eq_one {c : Bool} : flagByte c = 1 ↔ c = true := by cases c <;> decide

theorem flagByte_eq_zero {c : Bool} : flagByte c = 0 ↔ c = false := by cases c <;> decide

section Draw

variable {s t : State} {x y : Reg} {n : Nat}

/-- What `DXYN` does with a sprite that fits: `drawSprite_of_fits`, with VF as the collision (R211,
R214, R215). -/
theorem exec_drw_of_spriteFits (h : s.spriteFits x y n) :
    ∃ t, exec (.drw x y n) s = .next t ∧
      (∀ px py, (s.covers x y n px py → t.pixel px py = !s.pixel px py) ∧
        (¬ s.covers x y n px py → t.pixel px py = s.pixel px py)) ∧
      (t.reg vf = 1 ↔ ∃ px py, s.covers x y n px py ∧ s.pixel px py = true) ∧
      (t.reg vf = 0 ↔ ∀ px py, s.covers x y n px py → s.pixel px py = false) ∧
      t.redraw = true ∧ t.pc = s.pc + 2 ∧ OnlyChanges drawParts s t := by
  obtain ⟨fb, c, hdraw, hpixel, hc⟩ := drawSprite_of_fits s.mem n s.i.toNat (s.reg x).toNat
    (s.reg y).toNat s.fb false h
  have hcollide : c = true ↔ ∃ px py, s.covers x y n px py ∧ s.pixel px py = true :=
    hc.trans (or_iff_right Bool.false_ne_true)
  have hnext : exec (.drw x y n) s = .next ((s.setScreen fb).setFlag c).advance := by
    rw [exec_drw, State.indexed_zero, hdraw]
    rfl
  have hvf : (((s.setScreen fb).setFlag c).advance).reg vf = flagByte c :=
    State.reg_setReg_self _ vf _
  refine ⟨_, hnext, hpixel, ?_, ?_, rfl, rfl, OnlyChanges.erase (q := .fault) ?_ rfl⟩
  · rw [hvf, flagByte_eq_one, hcollide]
  · rw [hvf, flagByte_eq_zero, ← Bool.not_eq_true, hcollide]
    simp
  · refine (onlyChanges_drw hnext).mono fun p hp => ?_
    unfold drawParts
    unfold Instr.mayWrite at hp
    tauto

/-! ### The sprite after a draw -/

section SpriteKept

variable (h : OnlyChanges drawParts s t)
include h

theorem OnlyChanges.spriteBit_eq (r c : Nat) : t.spriteBit r c = s.spriteBit r c := by
  have hi : t.i = s.i := h .index (by simp [drawParts])
  have hmem : t.mem.get (s.i.toNat + r) = s.mem.get (s.i.toNat + r) :=
    h (.byte _) (by simp [drawParts])
  rw [State.spriteBit, State.spriteBit, hi, hmem]

theorem OnlyChanges.reg_eq_of_ne_vf {r : Reg} (hr : r ≠ vf) : t.reg r = s.reg r :=
  h (.reg r) (by simpa [drawParts] using hr)

variable (hx : x ≠ vf) (hy : y ≠ vf)
include hx hy

theorem OnlyChanges.spriteFits_iff : t.spriteFits x y n ↔ s.spriteFits x y n := by
  have hi : t.i = s.i := h .index (by simp [drawParts])
  simp only [State.spriteFits, State.rowFits, hi, h.spriteBit_eq, h.reg_eq_of_ne_vf hx,
    h.reg_eq_of_ne_vf hy]

theorem OnlyChanges.covers_iff {px py : Nat} :
    t.covers x y n px py ↔ s.covers x y n px py := by
  simp only [State.covers, h.spriteBit_eq, h.reg_eq_of_ne_vf hx, h.reg_eq_of_ne_vf hy]

end SpriteKept

/-- A sprite covers a pixel exactly when it has a set bit. -/
theorem State.exists_covers_iff :
    (∃ px py, s.covers x y n px py) ↔ ∃ r c, r < n ∧ c < 8 ∧ s.spriteBit r c = true := by
  constructor
  · rintro ⟨_, _, r, c, hr, hc, hbit, -, -⟩
    exact ⟨r, c, hr, hc, hbit⟩
  · rintro ⟨r, c, hr, hc, hbit⟩
    exact ⟨_, _, r, c, hr, hc, hbit, rfl, rfl⟩

end Draw

/-! ### The statements -/

/-- Settles O46, by `exec_drw_of_spriteFits`. -/
theorem drawFlipsTheCoveredPixels : Obligations.DrawFlipsTheCoveredPixels := by
  intro s x y n hfits
  obtain ⟨t, ht, hpixel, hone, hzero, hrest⟩ := exec_drw_of_spriteFits hfits
  exact ⟨t, ht, fun px py => (hpixel px py).1, fun px py => (hpixel px py).2, hone.mpr, hzero.mpr,
    hrest⟩

/-- Settles O47: the sprite's first failure is the record's error (`drawSprite_of_unreadable`,
`drawSprite_of_off`). -/
theorem drawReportsTheFirstFailure : Obligations.DrawReportsTheFirstFailure := by
  intro s x y n r hr hfits
  refine ⟨fun h => ?_, fun c hc hrow hbit hoff => ?_⟩
  · rw [exec_drw, State.indexed_zero, drawSprite_of_unreadable s.mem n _ _ _ r _ _ hr hfits h]
    rfl
  · have hgrid : ¬((s.reg x).toNat + c ≤ 63 ∧ (s.reg y).toNat + r ≤ 31) := by omega
    rw [exec_drw, State.indexed_zero,
      drawSprite_of_off s.mem n _ _ _ r c _ _ hr hfits hrow hc hbit hgrid]
    rfl

/-- Settles O48: the second draw covers the same pixels, so each is flipped twice or kept twice, and
it meets a 1 where the first one met a 0. -/
theorem drawingTwiceRestores : Obligations.DrawingTwiceRestores := by
  intro s x y n hfits hx hy
  obtain ⟨t, ht, hpixel, -, hzero, -, -, hframe⟩ := exec_drw_of_spriteFits hfits
  obtain ⟨u, hu, hpixel', hone', hzero', -⟩ :=
    exec_drw_of_spriteFits ((hframe.spriteFits_iff hx hy).mpr hfits)
  simp only [hframe.covers_iff hx hy] at hpixel' hone' hzero'
  have hcollide : u.reg vf = 1 ↔ ∃ px py, s.covers x y n px py ∧ s.pixel px py = false := by
    rw [hone']
    refine exists₂_congr fun px py => and_congr_right fun hcov => ?_
    rw [(hpixel px py).1 hcov, Bool.not_eq_true']
  refine ⟨t, u, ht, hu, framebuffer_ext fun px py => ?_, ?_, hcollide, fun ht0 => ?_⟩
  · change u.pixel px py = s.pixel px py
    by_cases hcov : s.covers x y n px py
    · rw [(hpixel' px py).1 hcov, (hpixel px py).1 hcov, Bool.not_not]
    · rw [(hpixel' px py).2 hcov, (hpixel px py).2 hcov]
  · rw [hzero', hone']
    by_cases hmet : ∃ px py, s.covers x y n px py ∧ t.pixel px py = true
    · exact .inr hmet
    · exact .inl fun px py hcov => Bool.eq_false_iff.mpr fun h1 => hmet ⟨px, py, hcov, h1⟩
  · rw [hcollide, ← State.exists_covers_iff (x := x) (y := y)]
    exact exists₂_congr fun px py => and_iff_left_of_imp (hzero.mp ht0 px py)

end Sys2Proof.Machine

/-! SUPPORT. The proofs of the statements about the keys and the timers (45_timers_keys.md). -/

namespace Sys2Proof.Machine

/-! ### The wait for a key -/

section KeyWait

variable {s : State} {x : Reg} {k : Key}

/-- `FX0A` with a key pressed is `writeResult` of the least one (R235). -/
theorem exec_ldVxK_of_some (h : s.firstKey = some k) :
    exec (.ldVxK x) s = writeResult x (trunc8 k.val) s := by
  simp only [exec, execLdVxK, h, writeResult]

/-- `FX0A` with no key pressed does nothing (R235). -/
theorem exec_ldVxK_of_none (h : s.firstKey = none) : exec (.ldVxK x) s = .next s := by
  simp only [exec, execLdVxK, h]

theorem blocked_ldVxK_of_some (h : s.firstKey = some k) : blocked (.ldVxK x) s = false := by
  rw [blocked, h, Option.isNone_some]

theorem blocked_ldVxK_of_none (h : s.firstKey = none) : blocked (.ldVxK x) s = true := by
  rw [blocked, h, Option.isNone_none]

/-- A key number fits a byte. -/
theorem toNat_trunc8_key (k : Key) : (trunc8 k.val).toNat = k.val :=
  toNat_trunc8_of_lt (k.isLt.trans (by decide))

/-- The only key pressed is the first (R48, R235). -/
theorem State.firstKey_setKey_of_none (h : s.firstKey = none) (k : Key) :
    (s.setKey k true).firstKey = some k := by
  refine State.firstKey_eq_some.mpr ⟨Vector.getElem_set_self k.isLt, fun j hj => ?_⟩
  have hne : k.val ≠ j.val := Fin.val_ne_of_ne hj.ne'
  exact (Vector.getElem_set_ne k.isLt j.isLt hne).trans (State.firstKey_eq_none.mp h j)

end KeyWait

/-- Settles O50: `FX0A` is `writeResult` of the first key where there is one, and nothing at all
where there is none. -/
theorem keyWaitTakesTheLeastKey : Obligations.KeyWaitTakesTheLeastKey := by
  intro s x
  refine ⟨fun k hk hleast => ?_, fun hnone => ?_⟩
  · have hfirst : s.firstKey = some k := State.firstKey_eq_some.mpr ⟨hk, hleast⟩
    exact ⟨blocked_ldVxK_of_some hfirst, exists_next_of_exec_eq_writeResult
      (exec_ldVxK_of_some hfirst) fun _ h => h ▸ toNat_trunc8_key k⟩
  · have hfirst : s.firstKey = none := State.firstKey_eq_none.mpr hnone
    exact ⟨blocked_ldVxK_of_none hfirst, exec_ldVxK_of_none hfirst⟩

/-- Settles O51: the first step is blocked, so no tick follows; `set_key` moves neither PC nor memory,
so the second fetches the same word, with that key as the first. -/
theorem keyWaitHoldsUntilAKeyIsSet : Obligations.KeyWaitHoldsUntilAKeyIsSet := by
  intro s w x k hs hf hd hnone
  have hfirst : s.firstKey = none := State.firstKey_eq_none.mpr hnone
  have hset := State.firstKey_setKey_of_none hfirst k
  have hstep := step_of_completed (s := s.setKey k true) hs hf hd (exec_ldVxK_of_some hset) hs
    (blocked_ldVxK_of_some hset)
  refine ⟨step_of_not_completed hs hf hd (exec_ldVxK_of_none hfirst)
    (.inr (blocked_ldVxK_of_none hfirst)), _, hstep, ?_, ?_⟩
  · exact (congrArg BitVec.toNat (State.reg_setReg_self _ x _)).trans (toNat_trunc8_key k)
  · exact State.pc_add_toNat (pc_le_of_fetchWord hf) (by decide)

/-! ### The key skips -/

/-- A register value up to 15 names the key of that number (R236). -/
theorem keyIndex_of_eq {b : Byte} {k : Key} (h : b.toNat = k.val) : keyIndex b = .ok k := by
  rw [keyIndex_of_le (by omega)]
  exact congrArg _ (Fin.ext h)

/-- Settles O49: with the key's index each is `skipIf` of its level; without one each raises. -/
theorem keySkipsReadTheKey : Obligations.KeySkipsReadTheKey := by
  intro s x
  refine ⟨fun k hk => ⟨?_, ?_⟩, fun hgt i hi => ?_⟩
  · refine exists_next_of_exec_eq_skipIf (c := s.key[k.val]) ?_ id id
    rw [exec_skp, keyIndex_of_eq hk]
    rfl
  · refine exists_next_of_exec_eq_skipIf (c := !s.key[k.val]) ?_
      (congrArg Bool.not) (congrArg Bool.not)
    rw [exec_sknp, keyIndex_of_eq hk]
    rfl
  · have hkey := keyIndex_of_gt hgt
    obtain rfl | rfl := hi
    · rw [exec_skp, hkey]
      rfl
    · rw [exec_sknp, hkey]
      rfl

/-! ### The timer instructions -/

/-- Settles O52: `FX07` is `writeResult` of DT, `FX15` is `setDelay` and `FX18` is `setSound`. -/
theorem timerReadsAndWrites : Obligations.TimerReadsAndWrites := fun _ x =>
  ⟨exists_next_of_exec_eq_writeResult rfl fun _ h => h,
    ⟨_, rfl, rfl, rfl, (onlyChanges_exec (i := .ldDtVx x) rfl).mono fun _ => Or.symm⟩,
    ⟨_, rfl, rfl, rfl, (onlyChanges_exec (i := .ldStVx x) rfl).mono fun _ => Or.symm⟩⟩

end Sys2Proof.Machine

/-! SUPPORT. The proof of the statement about unknown instruction words (60_exceptions.md). -/

namespace Sys2Proof.Machine

section UnknownWord

variable {s : State} {w : Word}

/-- The decoder rejects a word of no row: a word it accepts is a word of its instruction's row (R94). -/
theorem decode_eq_error_of_no_row (h : ∀ r ∈ opcodeMap, w &&& r.mask ≠ r.pattern) :
    decode w = .error (.unknownOpcode w) := by
  cases hd : decode w with
  | error e => rw [decode_error hd]
  | ok i =>
    obtain ⟨-, hmap⟩ := decodeFollowsTheOpcodeMap
    obtain ⟨hrow, -⟩ := hmap w
    obtain ⟨hmem, hmatch⟩ := hrow i hd
    exact absurd hmatch (h i.row hmem)

/-- A step whose word the decoder rejects takes the fatal error of R251. -/
theorem step_of_decode_error {e : DecodeError} (hs : s.fault = none) (hf : fetchWord s = .ok w)
    (hd : decode w = .error e) : step s = .next (s.latched .unknownOpcode (some w)) := by
  simp only [step, hs, cycle, hf, hd, raise_eq, fetchedWord_of_ok hf]

end UnknownWord

/-- Settles O9: the decoder rejects the word (`decode_eq_error_of_no_row`), and the step takes the
fatal error and nothing else (`step_of_decode_error`). -/
theorem unknownWordIsFatal : Obligations.UnknownWordIsFatal :=
  fun _ _ hs hf hrows => step_of_decode_error hs hf (decode_eq_error_of_no_row hrows)

end Sys2Proof.Machine
